-- ==== Sys2Proof/Word.lean ====
section
/-! DEFINITION. The machine word: every register and every port transfer is one whole 384-bit integer
(00_scope.md R7, R13; 20_memory.md R56). -/

namespace Sys2Proof

/-- A 384-bit register, command word or port value; bit 0 is the least significant (R7, R13). -/
abbrev Word := BitVec 384

/-- The 4-bit register index of the host port (20_memory.md R50). -/
abbrev PortIndex := BitVec 4

/-- One byte of a host's serialization (20_memory.md R57); the block itself has no bytes. -/
abbrev Byte := BitVec 8

end Sys2Proof
end

