-- ==== Sys2Proof/Syntax.lean ====
section
/-! DEFINITION. The commands of spec/opcode_table.json (30_encoding.md R72), one constructor each. -/

namespace Sys2Proof

/-- A command of the block. The operands of a command, but for the three bits of ENCODE_FLAGS, are the registers its
rule names and no part of the word (30_encoding.md R71, R75). -/
inductive Instr where
  /-- ENCODE_FLAGS c, b, a: the bits C_IN, B_IN and A_IN of the word (41_flag_codec.md R103). -/
  | encodeFlags (c b a : Bool)
  /-- DECODE_FLAGS (41_flag_codec.md R104). -/
  | decodeFlags
  /-- FQ2_SQRT (42_fq2_sqrt.md R119). -/
  | fq2Sqrt
  /-- COMPRESS (43_compressor.md R132). -/
  | compress
  /-- COMPRESS_INF (43_compressor.md R134). -/
  | compressInf
  /-- DECOMPRESS (44_decompressor.md R140). -/
  | decompress
deriving DecidableEq, Repr

end Sys2Proof
end

