-- ==== Sys2Proof/Decode.lean ====
section
/-! DEFINITION. The command word (30_encoding.md R70 to R75): its fields, the total decoder, and the encoder. -/

namespace Sys2Proof

/-- OPC, bits 3:0 of a command word (30_encoding.md R70). -/
def opcField (cw : Word) : BitVec 4 := cw.extractLsb' 0 4

/-- Bits 6:4 of a command word: A_IN, B_IN, C_IN (30_encoding.md R70). -/
def flagField (cw : Word) : BitVec 3 := cw.extractLsb' 4 3

/-- RSVD, bits 383:7 of a command word (30_encoding.md R70). -/
def rsvdField (cw : Word) : BitVec 377 := cw.extractLsb' 7 377

/-- Why a word names no command (30_encoding.md R73, R74). -/
inductive IllegalWord where
  /-- The opcode is 0x0 or 0x7 to 0xF. -/
  | badOpcode
  /-- RSVD is nonzero, or C_IN, B_IN or A_IN is set on an opcode other than ENCODE_FLAGS. -/
  | reservedBits
deriving DecidableEq, Repr

/-- A word without operand bits: the command `i` if bits 383:4 are clear, otherwise RESERVED_BITS (30_encoding.md
R73). -/
def plainWord (cw : Word) (i : Instr) : Except IllegalWord Instr :=
  if rsvdField cw ≠ 0 then .error .reservedBits
  else if flagField cw ≠ 0 then .error .reservedBits
  else .ok i

/-- Decode of 30_encoding.md R73, total on all 2^384 words: the opcode check comes first, then RSVD, then bits 6:4;
ENCODE_FLAGS takes c = cw[4], b = cw[5], a = cw[6] (R75). -/
def decode (cw : Word) : Except IllegalWord Instr :=
  match (opcField cw).toNat with
  | 1 =>
    if rsvdField cw ≠ 0 then .error .reservedBits
    else .ok (.encodeFlags (cw.getLsbD 4) (cw.getLsbD 5) (cw.getLsbD 6))
  | 2 => plainWord cw .decodeFlags
  | 3 => plainWord cw .fq2Sqrt
  | 4 => plainWord cw .compress
  | 5 => plainWord cw .compressInf
  | 6 => plainWord cw .decompress
  | _ => .error .badOpcode

/-- The word of a command (30_encoding.md R72, R76): 0x1 + 16·c + 32·b + 64·a for ENCODE_FLAGS, the opcode alone for
every other command. -/
def encode : Instr → Word
  | .encodeFlags c b a => BitVec.ofNat 384 (0x1 + 16 * c.toNat + 32 * b.toNat + 64 * a.toNat)
  | .decodeFlags => 0x2
  | .fq2Sqrt => 0x3
  | .compress => 0x4
  | .compressInf => 0x5
  | .decompress => 0x6

/-- The mask of a command's row in spec/opcode_table.json (30_encoding.md R75): every bit but 6:4 for ENCODE_FLAGS,
every bit for the others. -/
def tableMask : Instr → Word
  | .encodeFlags _ _ _ => ~~~0x70
  | .decodeFlags => ~~~0
  | .fq2Sqrt => ~~~0
  | .compress => ~~~0
  | .compressInf => ~~~0
  | .decompress => ~~~0

/-- The match value of a command's row in spec/opcode_table.json (30_encoding.md R75). -/
def tableMatch : Instr → Word
  | .encodeFlags _ _ _ => 0x1
  | .decodeFlags => 0x2
  | .fq2Sqrt => 0x3
  | .compress => 0x4
  | .compressInf => 0x5
  | .decompress => 0x6

/-- The command word with the low `nbits` bits of `w` and zeros above (every command is one 384-bit word,
30_encoding.md R71). -/
def tableWord (nbits w : Nat) : Word := BitVec.ofNat 384 (w % 2 ^ nbits)

/-- What the decoder reads from the bits `w` of a table row: a word moves whole through the port, so there is no byte
order to lay out (20_memory.md R56; log 10), and bits above 383 belong to no word. -/
def decodeTableWord (nbits w : Nat) : Option Instr :=
  if w % 2 ^ nbits < 2 ^ 384 then (decode (tableWord nbits w)).toOption else none

end Sys2Proof
end

