-- ==== Sys2Proof/Config.lean ====
section
/-! DEFINITION. What is fixed when the block is built (00_scope.md R7 to R12): the configuration (Q, BETA, B2), its
named values, and the values the spec leaves open, which are constants without a body. -/

namespace Sys2Proof

/-- An element of FQ2: `re + im·i` with both coefficients naturals below Q (00_scope.md R15, R17). -/
structure Fq2 where
  re : Nat
  im : Nat
deriving DecidableEq, Repr

/-- The configuration argument (Q, BETA, B2) of 00_scope.md R8 to R11: the base-field prime, the square of the
extension generator, and the curve constant of y² = x³ + B2. -/
structure Cfg where
  q : Nat
  beta : Nat
  b2 : Fq2
deriving DecidableEq, Repr

/-- CFG_BN254, the default configuration and "the hardware" of 00_scope.md R11; BETA is Q − 1. -/
def Config.bn254 : Cfg where
  q := 21888242871839275222246405745257275088696311157297823662689037894645226208583
  beta := 21888242871839275222246405745257275088696311157297823662689037894645226208582
  b2 := ⟨19485874751759354771024239261021720505790618469301721065564631296452457478373,
    266929791119991161246907387137283842545076965332900288569378510910307636690⟩

/-- CFG_BLS12_381, the alternative of 00_scope.md R11; BETA is Q − 1. -/
def Config.bls12_381 : Cfg where
  q := 0x1a0111ea397fe69a4b1ba7b6434bacd764774b84f38512bf6730d2a0f6b0f6241eabfffeb153ffffb9feffffffffaaab
  beta := 0x1a0111ea397fe69a4b1ba7b6434bacd764774b84f38512bf6730d2a0f6b0f6241eabfffeb153ffffb9feffffffffaaaa
  b2 := ⟨4, 4⟩

/-- TOY11 of 00_scope.md R11. -/
def Config.toy11 : Cfg where
  q := 11
  beta := 10
  b2 := ⟨1, 3⟩

/-- TOY7 of 00_scope.md R11. -/
def Config.toy7 : Cfg where
  q := 7
  beta := 6
  b2 := ⟨1, 2⟩

/-- The configuration the modelled block is built with: the default CFG_BN254 (R11).
DEDUCED, unsafe (log 1): the spec makes it a parameter and names this default as the hardware. -/
def Config.hardware : Cfg := Config.bn254

/-- MAX_LATENCY is this number plus one (00_scope.md R12: finite, at least 1; no value given).
DESIGN CHOICE, safe (log 2): a constant without a body. -/
opaque Config.maxLatencyPred : Nat

/-- The bound MAX_LATENCY of 00_scope.md R12. -/
def Config.maxLatency : Nat := Config.maxLatencyPred + 1

/-- The open choice behind LATENCY(cmd, operands) of 00_scope.md R12, from the command word and the register contents
in index order. DESIGN CHOICE, safe (log 2): a constant without a body. -/
opaque Config.latencyChoice : Word → List Word → Nat

/-- LATENCY(cmd, operands) of 00_scope.md R12: any value from 1 to MAX_LATENCY, chosen by `Config.latencyChoice`. -/
def Config.latency (cw : Word) (x : List Word) : Nat :=
  1 + Config.latencyChoice cw x % Config.maxLatency

/-- The n-th "any 384-bit value" drawn for rd_data (20_memory.md R51, R54; 70_reset_and_hazards.md R181, R191).
DESIGN CHOICE, safe (log 3): a constant without a body. -/
opaque Config.freeWord : Nat → Word

end Sys2Proof
end

