-- ==== Sys2Proof/Machine/Field.lean ====
section
/-! DEFINITION. The field primitives of 00_scope.md section 5: FQ and FQ2 arithmetic of a configuration, exact on
naturals and reduced modulo Q (R15 to R26). -/

namespace Sys2Proof.Machine

/-- `b` to the power `e` by repeated squaring, the exponent read from its lowest bit, `fuel` bits at most. -/
def powLoop {α : Type} (mul : α → α → α) : Nat → α → α → Nat → α
  | 0, acc, _, _ => acc
  | fuel + 1, acc, b, e =>
    if e = 0 then acc
    else if e % 2 = 1 then powLoop mul fuel (mul acc b) (mul b b) (e / 2)
    else powLoop mul fuel acc (mul b b) (e / 2)

/-- `b` to the power `e` under `mul` with unit `one`. -/
def powBy {α : Type} (mul : α → α → α) (one b : α) (e : Nat) : α := powLoop mul (e.log2 + 1) one b e

/-- fadd(a, b) = (a + b) mod Q (00_scope.md R16). -/
def fadd (c : Cfg) (a b : Nat) : Nat := (a + b) % c.q

/-- fsub(a, b) = (a + Q − b) mod Q (00_scope.md R16). -/
def fsub (c : Cfg) (a b : Nat) : Nat := (a + c.q - b) % c.q

/-- fneg(a) = (Q − a) mod Q, so fneg(0) = 0 (00_scope.md R16). -/
def fneg (c : Cfg) (a : Nat) : Nat := (c.q - a) % c.q

/-- fmul(a, b) = (a·b) mod Q (00_scope.md R16). -/
def fmul (c : Cfg) (a b : Nat) : Nat := a * b % c.q

/-- fpow(a, e) = a^e mod Q, with fpow(a, 0) = 1 (00_scope.md R16). -/
def fpow (c : Cfg) (a e : Nat) : Nat := powBy (fmul c) 1 a e

/-- ZERO2 = (0, 0) (00_scope.md R18). -/
def zero2 : Fq2 := ⟨0, 0⟩

/-- ONE2 = (1, 0) (00_scope.md R18). -/
def one2 : Fq2 := ⟨1, 0⟩

/-- I2 = (0, 1) (00_scope.md R18). -/
def i2 : Fq2 := ⟨0, 1⟩

/-- add2, per coefficient (00_scope.md R19). -/
def add2 (c : Cfg) (u v : Fq2) : Fq2 := ⟨fadd c u.re v.re, fadd c u.im v.im⟩

/-- neg2, per coefficient (00_scope.md R19). -/
def neg2 (c : Cfg) (u : Fq2) : Fq2 := ⟨fneg c u.re, fneg c u.im⟩

/-- sub2(u, v) = add2(u, neg2(v)) (00_scope.md R19). -/
def sub2 (c : Cfg) (u v : Fq2) : Fq2 := add2 c u (neg2 c v)

/-- mul2, the product modulo i² = BETA (00_scope.md R20). -/
def mul2 (c : Cfg) (u v : Fq2) : Fq2 :=
  ⟨fadd c (fmul c u.re v.re) (fmul c c.beta (fmul c u.im v.im)),
   fadd c (fmul c u.re v.im) (fmul c u.im v.re)⟩

/-- sqr2(u) = mul2(u, u) (00_scope.md R20). -/
def sqr2 (c : Cfg) (u : Fq2) : Fq2 := mul2 c u u

/-- cube2(u) = mul2(sqr2(u), u) (00_scope.md R20). -/
def cube2 (c : Cfg) (u : Fq2) : Fq2 := mul2 c (sqr2 c u) u

/-- pow2(u, e), with pow2(u, 0) = ONE2 (00_scope.md R21). -/
def pow2 (c : Cfg) (u : Fq2) (e : Nat) : Fq2 := powBy (mul2 c) one2 u e

/-- norm(u) = a² − BETA·b² for u = (a, b) (00_scope.md R22). -/
def norm2 (c : Cfg) (u : Fq2) : Nat := fsub c (fmul c u.re u.re) (fmul c c.beta (fmul c u.im u.im))

/-- The inverse of a nonzero FQ element, a^(Q−2), as R22 uses it on the norm. -/
def finv (c : Cfg) (a : Nat) : Nat := fpow c a (c.q - 2)

/-- inv2(u) for u ≠ ZERO2 (00_scope.md R22). -/
def inv2 (c : Cfg) (u : Fq2) : Fq2 :=
  let n := finv c (norm2 c u)
  ⟨fmul c u.re n, fneg c (fmul c u.im n)⟩

/-- div2(u, v) = mul2(u, inv2(v)) (00_scope.md R22). -/
def div2 (c : Cfg) (u v : Fq2) : Fq2 := mul2 c u (inv2 c v)

/-- OnCurve(px, py): y² = x³ + B2 (00_scope.md R26). -/
def onCurve (c : Cfg) (px py : Fq2) : Bool := decide (sqr2 c py = add2 c (cube2 c px) c.b2)

end Sys2Proof.Machine
end

