-- ==== Sys2Proof/Machine/State.lean ====
section
/-! DEFINITION. The machine's state as plain data (10_state.md), the port's inputs, and the reset state. -/

namespace Sys2Proof.Machine

/-- The twelve registers of 10_state.md R30. -/
inductive RegName where
  /-- index 0, the last accepted command word (R34) -/
  | cmd
  /-- index 1, the status register (R35) -/
  | status
  /-- index 2 -/
  | z1
  /-- index 3 -/
  | z2
  /-- index 4 -/
  | xRe
  /-- index 5 -/
  | xIm
  /-- index 6 -/
  | yRe
  /-- index 7 -/
  | yIm
  /-- index 8 -/
  | vRe
  /-- index 9 -/
  | vIm
  /-- index 10 -/
  | sRe
  /-- index 11 -/
  | sIm
deriving DecidableEq, Repr

/-- The contents of the twelve registers (10_state.md R30), each any 384-bit value (R31). -/
structure Regs where
  cmd : Word
  status : Word
  z1 : Word
  z2 : Word
  xRe : Word
  xIm : Word
  yRe : Word
  yIm : Word
  vRe : Word
  vIm : Word
  sRe : Word
  sIm : Word
deriving DecidableEq, Repr

/-- The sequencing state of 10_state.md R38, with the cycle count of 70_reset_and_hazards.md R191. -/
inductive Phase where
  /-- No command is running. -/
  | idle
  /-- The accepted word `cw` is running and completes in the `cyclesLeft`-th cycle from here. -/
  | busy (cw : Word) (cyclesLeft : Nat)
deriving DecidableEq, Repr

/-- The port's input signals in one clock cycle (20_memory.md R51). -/
structure PortIn where
  rst : Bool
  addr : PortIndex
  wrEn : Bool
  wrData : Word
  rdEn : Bool
deriving DecidableEq, Repr

/-- The block and what its port sees. `regs` and `phase` are the spec's CoreState (10_state.md); the other three
fields are the model's own. -/
structure State where
  /-- the register file, 10_state.md R30 -/
  regs : Regs
  /-- the sequencing state, 10_state.md R38 -/
  phase : Phase
  /-- what rd_data showed in the cycle last stepped, 20_memory.md R51 (log 4) -/
  rdData : Word
  /-- how many unspecified values rd_data has shown: the index of the next one (log 3) -/
  draws : Nat
  /-- the host's coming port cycles, first one first; none listed means no access (log 5) -/
  pending : List PortIn
deriving DecidableEq, Repr

/-- The block has no fault: no access can fault and no failure stops it (20_memory.md R58; 60_exceptions.md R160,
R166). So this type has no constructor, and nothing raises one (safe; log 11). -/
inductive Fault where
deriving DecidableEq, Repr

/-- The reasons for which the model has no meaning for a step. -/
inductive Refusal where
  /-- Raised by an arm of `exec` whose command has no meaning yet; no arm is in that case. Safe: the step stops. -/
  | notModelled (mnemonic : String)
deriving DecidableEq, Repr

/-- Every register at 0 (10_state.md R30; 70_reset_and_hazards.md R180). -/
def Regs.reset : Regs where
  cmd := 0
  status := 0
  z1 := 0
  z2 := 0
  xRe := 0
  xIm := 0
  yRe := 0
  yIm := 0
  vRe := 0
  vIm := 0
  sRe := 0
  sIm := 0

/-- The reset state of 70_reset_and_hazards.md R180: every register 0, phase Idle. The model's own fields: nothing
pending, rd_data 0 and no draw made (DESIGN CHOICE, logs 3, 4 and 5). -/
def State.reset : State where
  regs := Regs.reset
  phase := .idle
  rdData := 0
  draws := 0
  pending := []

end Sys2Proof.Machine
end

