-- ==== Sys2Proof/Machine/Flags.lean ====
section
/-! DEFINITION. Flags: the STATUS register's fields and value (10_state.md R35, R37), the error kinds and details
(60_exceptions.md R161, R162), the flag bits of a compressed point (41_flag_codec.md R100 to R102) and the sign flag
(43_compressor.md R130). -/

namespace Sys2Proof.Machine

/-- The error kinds of 60_exceptions.md R161, without NONE. -/
inductive ErrorKind where
  | malformedEncoding
  | rangeError
  | noSquareRoot
  | notOnCurve
  | illegalCommand
deriving DecidableEq, Repr

/-- The error details of 60_exceptions.md R162, without NONE: which check failed. -/
inductive Detail where
  | cFlagClear
  | bFlagMismatch
  | aFlagOnInfinity
  | xImRange
  | xReRange
  | noRoot
  | notOnCurve
  | opXRe
  | opXIm
  | opYRe
  | opYIm
  | opVRe
  | opVIm
  | badOpcode
  | reservedBits
deriving DecidableEq, Repr

/-- The ECODE of a kind (60_exceptions.md R161); 0 is NONE. -/
def ErrorKind.code : ErrorKind → Nat
  | .malformedEncoding => 1
  | .rangeError => 2
  | .noSquareRoot => 3
  | .notOnCurve => 4
  | .illegalCommand => 5

/-- The EDETAIL of a check (60_exceptions.md R162); 0 is NONE. -/
def Detail.code : Detail → Nat
  | .cFlagClear => 1
  | .bFlagMismatch => 2
  | .aFlagOnInfinity => 3
  | .xImRange => 4
  | .xReRange => 5
  | .noRoot => 6
  | .notOnCurve => 7
  | .opXRe => 8
  | .opXIm => 9
  | .opYRe => 10
  | .opYIm => 11
  | .opVRe => 12
  | .opVIm => 13
  | .badOpcode => 14
  | .reservedBits => 15

/-- The kind a detail belongs to (60_exceptions.md R162, column ECODE). -/
def Detail.kind : Detail → ErrorKind
  | .cFlagClear => .malformedEncoding
  | .bFlagMismatch => .malformedEncoding
  | .aFlagOnInfinity => .malformedEncoding
  | .xImRange => .rangeError
  | .xReRange => .rangeError
  | .noRoot => .noSquareRoot
  | .notOnCurve => .notOnCurve
  | .opXRe => .rangeError
  | .opXIm => .rangeError
  | .opYRe => .rangeError
  | .opYIm => .rangeError
  | .opVRe => .rangeError
  | .opVIm => .rangeError
  | .badOpcode => .illegalCommand
  | .reservedBits => .illegalCommand

/-- The registers that hold a check's offending value (60_exceptions.md R162, column "register holding the offending
value"). -/
def Detail.offending : Detail → List RegName
  | .cFlagClear => [.z1]
  | .bFlagMismatch => [.z1, .z2]
  | .aFlagOnInfinity => [.z1]
  | .xImRange => [.z1]
  | .xReRange => [.z2]
  | .noRoot => [.z1, .z2]
  | .notOnCurve => [.z1, .z2]
  | .opXRe => [.xRe]
  | .opXIm => [.xIm]
  | .opYRe => [.yRe]
  | .opYIm => [.yIm]
  | .opVRe => [.vRe]
  | .opVIm => [.vIm]
  | .badOpcode => [.cmd]
  | .reservedBits => [.cmd]

/-- The arguments of Stat in 10_state.md R37; one that a rule does not name is 0. -/
structure StatArgs where
  err : Bool := false
  ecode : Nat := 0
  edet : Nat := 0
  inf : Bool := false
  found : Bool := false
  fc : Bool := false
  fb : Bool := false
  fa : Bool := false
deriving DecidableEq, Repr

/-- Stat of 10_state.md R37: the STATUS value of a completion, with DONE = 1 and BUSY = 0. -/
def stat (f : StatArgs) : Word :=
  BitVec.ofNat 384 (2 + 4 * f.err.toNat + 8 * f.ecode + 128 * f.edet + 2048 * f.inf.toNat + 4096 * f.found.toNat +
    8192 * f.fc.toNat + 16384 * f.fb.toNat + 32768 * f.fa.toNat)

/-- STATUS after a failed check: ERR = 1 with its ECODE and EDETAIL, every other field as Stat leaves it
(60_exceptions.md R163). -/
def failStat (d : Detail) : Word := stat { err := true, ecode := d.kind.code, edet := d.code }

/-- STATUS while a command runs: BUSY = 1, every other field 0 (10_state.md R39). -/
def busyStat : Word := 1

/-- BUSY, bit 0 (10_state.md R35). -/
def statBusy (st : Word) : Bool := st.getLsbD 0

/-- DONE, bit 1 (10_state.md R35). -/
def statDone (st : Word) : Bool := st.getLsbD 1

/-- ERR, bit 2 (10_state.md R35). -/
def statErr (st : Word) : Bool := st.getLsbD 2

/-- ECODE, bits 6:3 (10_state.md R35). -/
def statEcode (st : Word) : Nat := (st.extractLsb' 3 4).toNat

/-- EDETAIL, bits 10:7 (10_state.md R35). -/
def statEdetail (st : Word) : Nat := (st.extractLsb' 7 4).toNat

/-- INF, bit 11 (10_state.md R35). -/
def statInf (st : Word) : Bool := st.getLsbD 11

/-- FOUND, bit 12 (10_state.md R35). -/
def statFound (st : Word) : Bool := st.getLsbD 12

/-- FC, bit 13 (10_state.md R35). -/
def statFc (st : Word) : Bool := st.getLsbD 13

/-- FB, bit 14 (10_state.md R35). -/
def statFb (st : Word) : Bool := st.getLsbD 14

/-- FA, bit 15 (10_state.md R35). -/
def statFa (st : Word) : Bool := st.getLsbD 15

/-- The payload of a word: bits 380:0 (41_flag_codec.md R100). -/
def payload (z : Word) : Nat := z.toNat % 2 ^ 381

/-- encodeFlags(c, b, a, p): the three flags over bits 380:0 of p (41_flag_codec.md R101). -/
def encodeFlags (c b a : Bool) (p : Word) : Word :=
  BitVec.ofNat 384 (c.toNat * 2 ^ 383 + b.toNat * 2 ^ 382 + a.toNat * 2 ^ 381 + payload p)

/-- decodeFlags(z1): bits 383, 382 and 381 (41_flag_codec.md R102). -/
def decodeFlags (z1 : Word) : Bool × Bool × Bool := (z1.getLsbD 383, z1.getLsbD 382, z1.getLsbD 381)

/-- AFlag(y): twice the imaginary part, or if that is 0 twice the real part, divided by Q (43_compressor.md R130). -/
def aFlag (c : Cfg) (y : Fq2) : Nat := if 0 < y.im then 2 * y.im / c.q else 2 * y.re / c.q

end Sys2Proof.Machine
end

