-- ==== Sys2Proof/Machine/Ops.lean ====
section
/-! DEFINITION. The operations over the register file and the port (10_state.md, 20_memory.md): register access, a
command's completion, raising a failure, acceptance, the port's reads and writes, and reset. -/

namespace Sys2Proof.Machine

/-- x[R] (00_scope.md R14). -/
def Regs.get (x : Regs) : RegName → Word
  | .cmd => x.cmd
  | .status => x.status
  | .z1 => x.z1
  | .z2 => x.z2
  | .xRe => x.xRe
  | .xIm => x.xIm
  | .yRe => x.yRe
  | .yIm => x.yIm
  | .vRe => x.vRe
  | .vIm => x.vIm
  | .sRe => x.sRe
  | .sIm => x.sIm

/-- x[R] <- v (00_scope.md R14). -/
def Regs.set (x : Regs) (r : RegName) (v : Word) : Regs :=
  match r with
  | .cmd => { x with cmd := v }
  | .status => { x with status := v }
  | .z1 => { x with z1 := v }
  | .z2 => { x with z2 := v }
  | .xRe => { x with xRe := v }
  | .xIm => { x with xIm := v }
  | .yRe => { x with yRe := v }
  | .yIm => { x with yIm := v }
  | .vRe => { x with vRe := v }
  | .vIm => { x with vIm := v }
  | .sRe => { x with sRe := v }
  | .sIm => { x with sIm := v }

/-- The index of a register (10_state.md R30). -/
def RegName.index : RegName → PortIndex
  | .cmd => 0
  | .status => 1
  | .z1 => 2
  | .z2 => 3
  | .xRe => 4
  | .xIm => 5
  | .yRe => 6
  | .yIm => 7
  | .vRe => 8
  | .vIm => 9
  | .sRe => 10
  | .sIm => 11

/-- The register at an index; indices 12 to 15 hold no state (10_state.md R30, R33). -/
def regAt (i : PortIndex) : Option RegName :=
  match i.toNat with
  | 0 => some .cmd
  | 1 => some .status
  | 2 => some .z1
  | 3 => some .z2
  | 4 => some .xRe
  | 5 => some .xIm
  | 6 => some .yRe
  | 7 => some .yIm
  | 8 => some .vRe
  | 9 => some .vIm
  | 10 => some .sRe
  | 11 => some .sIm
  | _ => none

/-- The data registers, indices 2 to 11 (10_state.md R31). -/
def RegName.isData : RegName → Bool
  | .cmd => false
  | .status => false
  | .z1 => true
  | .z2 => true
  | .xRe => true
  | .xIm => true
  | .yRe => true
  | .yIm => true
  | .vRe => true
  | .vIm => true
  | .sRe => true
  | .sIm => true

/-- The register contents in index order (10_state.md R30), as LATENCY sees them. -/
def Regs.toList (x : Regs) : List Word :=
  [x.cmd, x.status, x.z1, x.z2, x.xRe, x.xIm, x.yRe, x.yIm, x.vRe, x.vIm, x.sRe, x.sIm]

/-- The completion of a command as one update: the registers `x`, STATUS = Stat of `f`, phase Idle (10_state.md R37,
R40). -/
def finish (f : StatArgs) (x : Regs) (s : State) : State :=
  { s with regs := x.set .status (stat f), phase := .idle }

/-- raise E(d): the one way a command fails (60_exceptions.md R163). STATUS gets ERR, ECODE and EDETAIL, the block is
Idle, and nothing else changes; no control is transferred and there is nothing to return from (R166, R167). -/
def raise (d : Detail) (s : State) : State :=
  { s with regs := s.regs.set .status (failStat d), phase := .idle }

/-- The detail with which a word that names no command fails (30_encoding.md R73). -/
def illegalDetail : IllegalWord → Detail
  | .badOpcode => .badOpcode
  | .reservedBits => .reservedBits

/-- Acceptance of a command word (10_state.md R39): CMD takes it, STATUS = 1, and it completes in the n-th cycle from
the next. -/
def accept (cw : Word) (n : Nat) (s : State) : State :=
  { s with regs := (s.regs.set .cmd cw).set .status busyStat, phase := .busy cw n }

/-- The value PortRead(i) returns (20_memory.md R54); none stands for an unspecified value, at a data register while
Busy. -/
def portRead (s : State) (i : PortIndex) : Option Word :=
  match regAt i with
  | none => some 0
  | some r =>
    if r.isData then
      match s.phase with
      | .idle => some (s.regs.get r)
      | .busy _ _ => none
    else some (s.regs.get r)

/-- PortWrite(i, v) while Idle (20_memory.md R52): CMD starts a command with the given latency, STATUS and reserved
indices ignore the write, a data register takes it. -/
def portWrite (latency : Nat) (i : PortIndex) (v : Word) (s : State) : State :=
  match regAt i with
  | none => s
  | some .cmd => accept v latency s
  | some .status => s
  | some r => { s with regs := s.regs.set r v }

/-- rd_data shows an unspecified 384-bit value: the next draw (20_memory.md R51; 70_reset_and_hazards.md R191; log 3).
-/
def drawRdData (s : State) : State :=
  { s with rdData := Config.freeWord s.draws, draws := s.draws + 1 }

/-- rd_data of a cycle without reset (70_reset_and_hazards.md R191): PortRead(addr) when only rd_en is set, otherwise
any value. -/
def driveRdData (p : PortIn) (s : State) : State :=
  if p.rdEn && !p.wrEn then
    match portRead s p.addr with
    | some v => { s with rdData := v }
    | none => drawRdData s
  else drawRdData s

/-- A cycle with rst = 1 (70_reset_and_hazards.md R180 to R182): the reset state whatever was before, rd_data
unspecified. The host's coming cycles are not the block's state and stay (log 13). -/
def resetBlock (s : State) : State :=
  drawRdData { s with regs := Regs.reset, phase := .idle }

/-- A cycle without reset and without an access (the NOP line of 30_encoding.md R76). -/
def PortIn.quiet : PortIn := { rst := false, addr := 0, wrEn := false, wrData := 0, rdEn := false }

end Sys2Proof.Machine
end

