-- ==== Sys2Proof/Machine/Operands.lean ====
section
/-! DEFINITION. A command's operands: registers read as naturals and as FQ2 elements (00_scope.md R17), the range
checks of 43_compressor.md R133 and 42_fq2_sqrt.md R119, and results written back. -/

namespace Sys2Proof.Machine

/-- The unsigned integer a register holds (00_scope.md R13). -/
def natOf (x : Regs) (r : RegName) : Nat := (x.get r).toNat

/-- The FQ2 element held in a pair of registers, real part first (00_scope.md R17). -/
def fq2Of (x : Regs) (re im : RegName) : Fq2 := ⟨natOf x re, natOf x im⟩

/-- A natural below 2^384 as a register value (00_scope.md R14, R25). -/
def wordOf (n : Nat) : Word := BitVec.ofNat 384 n

/-- An FQ2 element written to a pair of registers, real part first (00_scope.md R17). -/
def setFq2 (x : Regs) (re im : RegName) (u : Fq2) : Regs := (x.set re (wordOf u.re)).set im (wordOf u.im)

/-- The first check of a list that fails: the register's value is not below Q (43_compressor.md R133; 60_exceptions.md
R164). -/
def firstOutOfRange (c : Cfg) (x : Regs) : List (RegName × Detail) → Option Detail
  | [] => none
  | (r, d) :: rest => if c.q ≤ natOf x r then some d else firstOutOfRange c x rest

/-- The operand checks of COMPRESS, in the order of 43_compressor.md R133. -/
def compressChecks : List (RegName × Detail) :=
  [(.xRe, .opXRe), (.xIm, .opXIm), (.yRe, .opYRe), (.yIm, .opYIm)]

/-- The operand checks of FQ2_SQRT, in the order of 42_fq2_sqrt.md R119. -/
def sqrtChecks : List (RegName × Detail) := [(.vRe, .opVRe), (.vIm, .opVIm)]

/-- A point value (00_scope.md R27): affine with z = 1, or the point at infinity. -/
inductive Point where
  | affine (x y : Fq2)
  | infinity
deriving DecidableEq, Repr

end Sys2Proof.Machine
end

