-- ==== Sys2Proof/Machine/Compressor.lean ====
section
/-! DEFINITION. Compressor: COMPRESS and COMPRESS_INF (43_compressor.md R132 to R134). -/

namespace Sys2Proof.Machine

/-- The compressed form (z1, z2) of a point: x_im + a·2^381 + 2^383 and x_re for an affine point (43_compressor.md
R132), the constant pair for the point at infinity (R134). -/
def compressPoint (c : Cfg) : Point → Nat × Nat
  | .affine x y => (x.im + aFlag c y * 2 ^ 381 + 2 ^ 383, x.re)
  | .infinity => (2 ^ 383 + 2 ^ 382, 0)

/-- A compressed form written to Z1 and Z2. -/
def setCompressed (x : Regs) (z : Nat × Nat) : Regs := (x.set .z1 (wordOf z.1)).set .z2 (wordOf z.2)

/-- COMPRESS in a configuration (43_compressor.md R132): the operand checks of R133, then the compressed form of (X,
Y). -/
def compressRule (c : Cfg) (s : State) : State :=
  match firstOutOfRange c s.regs compressChecks with
  | some d => raise d s
  | none =>
    finish {} (setCompressed s.regs (compressPoint c (.affine (fq2Of s.regs .xRe .xIm) (fq2Of s.regs .yRe .yIm)))) s

/-- COMPRESS_INF in a configuration (43_compressor.md R134): the constant form, whatever the registers hold. -/
def compressInfRule (c : Cfg) (s : State) : State :=
  finish {} (setCompressed s.regs (compressPoint c .infinity)) s

/-- The meaning of COMPRESS in the block as built. -/
def execCompress (s : State) : Host.Outcome State Fault Refusal :=
  .next (compressRule Config.hardware s)

/-- The meaning of COMPRESS_INF in the block as built. -/
def execCompressInf (s : State) : Host.Outcome State Fault Refusal :=
  .next (compressInfRule Config.hardware s)

end Sys2Proof.Machine
end

