-- ==== Sys2Proof/WellFormed.lean ====
section
/-! DEFINITION. Well-formedness: of a command, of a configuration (00_scope.md R8 to R10), of a field element (R15,
R17) and of a port cycle (20_memory.md R51). -/

namespace Sys2Proof

/-- A command is well formed when its operands are: every operand of R70 is one bit, held as a Bool, so every term is.
-/
def Instr.wf : Instr → Bool
  | .encodeFlags _ _ _ => true
  | .decodeFlags => true
  | .fq2Sqrt => true
  | .compress => true
  | .compressInf => true
  | .decompress => true

/-- An FQ2 element of a configuration: both coefficients below Q (00_scope.md R15, R17). -/
def Fq2.wf (c : Cfg) (u : Fq2) : Bool := decide (u.re < c.q) && decide (u.im < c.q)

/-- The parts of 00_scope.md R8 to R10 that a glance decides: Q odd, 2 < Q < 2^381, BETA a nonzero field element, B2
an FQ2 element. -/
def Cfg.wf (c : Cfg) : Bool :=
  decide (c.q % 2 = 1) && decide (2 < c.q) && decide (c.q < 2 ^ 381) &&
    decide (0 < c.beta) && decide (c.beta < c.q) && c.b2.wf c

/-- The constraints of 00_scope.md R8 to R10 on a configuration: `Cfg.wf`, Q prime, and BETA no square modulo Q. -/
structure Cfg.Valid (c : Cfg) : Prop where
  wf : c.wf = true
  prime : c.q.Prime
  nonresidue : ∀ x < c.q, x * x % c.q ≠ c.beta

/-- The host must not assert wr_en and rd_en in the same cycle (20_memory.md R51). -/
def Machine.PortIn.wf (p : Machine.PortIn) : Bool := !(p.wrEn && p.rdEn)

end Sys2Proof
end

