-- ==== Sys2Proof/Machine/SquareRoot.lean ====
section
/-! DEFINITION. ModularSquareRootFQ2 (42_fq2_sqrt.md): the contract of R113, the square root the block computes, and
the spec's two informative algorithms (R116, R118). -/

namespace Sys2Proof.Machine

/-- Canon(u1, u2): the one with the larger imaginary part, or with equal imaginary parts the larger real part
(42_fq2_sqrt.md R112). -/
def canon (u1 u2 : Fq2) : Fq2 :=
  if u2.im < u1.im ∨ (u1.im = u2.im ∧ u2.re < u1.re) then u1 else u2

/-- IsSquare: some FQ2 element squares to v (42_fq2_sqrt.md R110). -/
def HasRoot (c : Cfg) (v : Fq2) : Prop := ∃ y : Fq2, y.wf c = true ∧ sqr2 c y = v

/-- The contract of 42_fq2_sqrt.md R113 on a result `r` for `v`: None exactly when v is no square, and otherwise
Canon(y, neg2(y)) for any root y. -/
def SqrtContract (c : Cfg) (v : Fq2) : Option Fq2 → Prop
  | none => ¬ HasRoot c v
  | some s => HasRoot c v ∧ ∀ y : Fq2, y.wf c = true → sqr2 c y = v → s = canon y (neg2 c y)

/-- Euler's criterion for a nonzero FQ element: a^((Q−1)/2) = 1. -/
def isResidue (c : Cfg) (a : Nat) : Bool := decide (fpow c a ((c.q - 1) / 2) = 1)

/-- The computable IsSquare of 42_fq2_sqrt.md R110: ZERO2, or norm(v)^((Q−1)/2) = 1. -/
def isSquare2 (c : Cfg) (v : Fq2) : Bool := decide (v = zero2) || isResidue c (norm2 c v)

/-- `(s, m)` with `n = 2^s · m` and `m` odd, for `0 < n < 2^fuel`. -/
def twoPart : Nat → Nat → Nat × Nat
  | 0, n => (0, n)
  | fuel + 1, n => if n % 2 = 0 then ((twoPart fuel (n / 2)).1 + 1, (twoPart fuel (n / 2)).2) else (0, n)

/-- Square root by powers of a non-residue's odd part: keeps r² = x·t and t^(2^k) = 1, where z^(2^k) = −1. -/
def rootLoop (c : Cfg) : Nat → Nat → Nat → Nat → Nat
  | 0, r, _, _ => r
  | k + 1, r, t, z =>
    let zz := fmul c z z
    if fpow c t (2 ^ k) = 1 then rootLoop c k r t zz else rootLoop c k (fmul c r z) (fmul c t zz) zz

/-- A root in FQ of a residue x, with BETA as the known non-residue (00_scope.md R8). For Q ≡ 3 (mod 4) it is
x^((Q+1)/4). DESIGN CHOICE, safe (log 9): 42_fq2_sqrt.md R115 leaves the method free. -/
def sqrtFq (c : Cfg) (x : Nat) : Nat :=
  let sm := twoPart 381 (c.q - 1)
  rootLoop c (sm.1 - 1) (fpow c x ((sm.2 + 1) / 2)) (fpow c x sm.2) (fpow c c.beta sm.2)

/-- A root (x0, x1) of a nonzero square v = (a, b): from x0² + BETA·x1² = a and 2·x0·x1 = b, x0² is (a ± t)/2 with t a
root of norm(v), and exactly one of the two is a residue; for b = 0 the root is real or purely imaginary. DESIGN
CHOICE, safe (log 9): 42_fq2_sqrt.md R115 leaves the method free. -/
def someRoot (c : Cfg) (v : Fq2) : Fq2 :=
  if v.im = 0 then
    if isResidue c v.re then ⟨sqrtFq c v.re, 0⟩ else ⟨0, sqrtFq c (fmul c v.re (finv c c.beta))⟩
  else
    let t := sqrtFq c (norm2 c v)
    let d := fmul c (fadd c v.re t) (finv c 2)
    let d' := fmul c (fsub c v.re t) (finv c 2)
    let x0 := sqrtFq c (if isResidue c d then d else d')
    ⟨x0, fmul c v.im (finv c (fmul c 2 x0))⟩

/-- SqrtFQ2(v) in the shape of 42_fq2_sqrt.md R113: ZERO2 has the root ZERO2 (R114), a non-square has none, and a
square has the canonical one of a root and its negative. -/
def sqrtFq2 (c : Cfg) (v : Fq2) : Option Fq2 :=
  if v = zero2 then some zero2
  else if isSquare2 c v then
    let y := someRoot c v
    some (canon y (neg2 c y))
  else none

/-- The reference method of 42_fq2_sqrt.md R118 (informative), for BETA = Q − 1 and Q ≡ 3 (mod 4). No command uses it.
-/
def sqrtReference (c : Cfg) (v : Fq2) : Option Fq2 :=
  if v = zero2 then some zero2
  else
    let a1 := pow2 c v ((c.q - 3) / 4)
    let alpha := mul2 c (sqr2 c a1) v
    let a0 := mul2 c (pow2 c alpha c.q) alpha
    if a0 = ⟨c.q - 1, 0⟩ then none
    else
      let x0 := mul2 c a1 v
      let y :=
        if alpha = ⟨c.q - 1, 0⟩ then mul2 c i2 x0
        else mul2 c (pow2 c (add2 c one2 alpha) ((c.q - 1) / 2)) x0
      some (canon y (neg2 c y))

/-- FQ2_ORDER = Q² − 1 (42_fq2_sqrt.md R116). -/
def fq2Order (c : Cfg) : Nat := c.q * c.q - 1

/-- zeta[k] of 42_fq2_sqrt.md R116 step 1. -/
def zeta (c : Cfg) (k : Nat) : Fq2 := pow2 c ⟨1, 1⟩ (fq2Order c * k / 8)

/-- The source's algorithm of 42_fq2_sqrt.md R116 (informative; right for every nonzero v only when Q ≡ 3 (mod 8),
R117). No command uses it. -/
def sqrtSource (c : Cfg) (v : Fq2) : Option Fq2 :=
  let w := pow2 c v ((fq2Order c + 8) / 16)
  let r := div2 c (sqr2 c w) v
  match [0, 2, 4, 6].find? (fun k => decide (r = zeta c k)) with
  | none => none
  | some k =>
    let x1 := div2 c w (zeta c (k / 2))
    some (canon x1 (neg2 c x1))

end Sys2Proof.Machine
end

