-- ==== Sys2Proof/Machine/Decompressor.lean ====
section
/-! DEFINITION. Decompressor: DECOMPRESS (44_decompressor.md R140). -/

namespace Sys2Proof.Machine

/-- Steps 4 to 9 of 44_decompressor.md R140 for a finite point with sign bit `a`, payload `xIm` and real part `xRe`:
the range checks, the root of x³ + B2, its sign correction, and the final curve check. -/
def decompressFinite (c : Cfg) (a : Bool) (xIm xRe : Nat) : Except Detail Point :=
  if c.q ≤ xIm then .error .xImRange
  else if c.q ≤ xRe then .error .xReRange
  else
    let px : Fq2 := ⟨xRe, xIm⟩
    match sqrtFq2 c (add2 c (cube2 c px) c.b2) with
    | none => .error .noRoot
    | some yc =>
      let py := if aFlag c yc ≠ a.toNat then neg2 c yc else yc
      if onCurve c px py then .ok (.affine px py) else .error .notOnCurve

/-- The is_inf of 44_decompressor.md R140 step 2: a zero payload and z2 = 0. -/
def isInfinityForm (z1 z2 : Word) : Bool := decide (payload z1 = 0) && decide (z2 = 0)

/-- The validation and reconstruction of 44_decompressor.md R140, failing at the first check in the source's order. -/
def decompressPoint (c : Cfg) (z1 z2 : Word) : Except Detail Point :=
  let f := decodeFlags z1
  if f.1 = false then .error .cFlagClear
  else if f.2.1 ≠ isInfinityForm z1 z2 then .error .bFlagMismatch
  else if isInfinityForm z1 z2 then
    if f.2.2 then .error .aFlagOnInfinity else .ok .infinity
  else decompressFinite c f.2.2 (payload z1) z2.toNat

/-- DECOMPRESS in a configuration (44_decompressor.md R140): a finite point into X and Y, the point at infinity as INF
= 1 with X and Y zero (R145), or the failure of the first check that fails. -/
def decompressRule (c : Cfg) (s : State) : State :=
  match decompressPoint c (s.regs.get .z1) (s.regs.get .z2) with
  | .error d => raise d s
  | .ok (.affine px py) => finish {} (setFq2 (setFq2 s.regs .xRe .xIm px) .yRe .yIm py) s
  | .ok .infinity => finish { inf := true } (setFq2 (setFq2 s.regs .xRe .xIm zero2) .yRe .yIm zero2) s

/-- The meaning of DECOMPRESS in the block as built. -/
def execDecompress (s : State) : Host.Outcome State Fault Refusal :=
  .next (decompressRule Config.hardware s)

end Sys2Proof.Machine
end

