-- ==== Sys2Proof/Machine/FlagCodec.lean ====
section
/-! DEFINITION. FlagCodec: ENCODE_FLAGS and DECODE_FLAGS (41_flag_codec.md R103, R104). -/

namespace Sys2Proof.Machine

/-- ENCODE_FLAGS (41_flag_codec.md R103): Z1 from the three operand bits over X_IM. -/
def encodeFlagsRule (c b a : Bool) (s : State) : State :=
  finish {} (s.regs.set .z1 (encodeFlags c b a (s.regs.get .xIm))) s

/-- DECODE_FLAGS (41_flag_codec.md R104): FC, FB and FA from Z1. -/
def decodeFlagsRule (s : State) : State :=
  let f := decodeFlags (s.regs.get .z1)
  finish { fc := f.1, fb := f.2.1, fa := f.2.2 } s.regs s

/-- The meaning of ENCODE_FLAGS. -/
def execEncodeFlags (c b a : Bool) (s : State) : Host.Outcome State Fault Refusal :=
  .next (encodeFlagsRule c b a s)

/-- The meaning of DECODE_FLAGS. -/
def execDecodeFlags (s : State) : Host.Outcome State Fault Refusal :=
  .next (decodeFlagsRule s)

end Sys2Proof.Machine
end

