-- ==== Sys2Proof/Machine/Sqrt.lean ====
section
/-! DEFINITION. ModularSquareRootFQ2 as a command: FQ2_SQRT (42_fq2_sqrt.md R119). -/

namespace Sys2Proof.Machine

/-- FQ2_SQRT in a configuration (42_fq2_sqrt.md R119): the range checks, then the canonical root into S with FOUND =
1; without a root only STATUS changes. -/
def fq2SqrtRule (c : Cfg) (s : State) : State :=
  match firstOutOfRange c s.regs sqrtChecks with
  | some d => raise d s
  | none =>
    match sqrtFq2 c (fq2Of s.regs .vRe .vIm) with
    | some root => finish { found := true } (setFq2 s.regs .sRe .sIm root) s
    | none => finish {} s.regs s

/-- The meaning of FQ2_SQRT in the block as built. -/
def execFq2Sqrt (s : State) : Host.Outcome State Fault Refusal :=
  .next (fq2SqrtRule Config.hardware s)

end Sys2Proof.Machine
end

