-- ==== Sys2Proof/Machine/Dispatch.lean ====
section
/-! DEFINITION. Dispatch (10_state.md R41): one arm per command of 30_encoding.md R72. -/

namespace Sys2Proof.Machine

def exec (i : Instr) (s : State) : Host.Outcome State Fault Refusal :=
  match i with
  | .encodeFlags c b a => Sys2Proof.Machine.execEncodeFlags c b a s
  | .decodeFlags => Sys2Proof.Machine.execDecodeFlags s
  | .fq2Sqrt => Sys2Proof.Machine.execFq2Sqrt s
  | .compress => Sys2Proof.Machine.execCompress s
  | .compressInf => Sys2Proof.Machine.execCompressInf s
  | .decompress => Sys2Proof.Machine.execDecompress s

end Sys2Proof.Machine
end

