-- ==== Sys2Proof/Machine/Cycle.lean ====
section
/-! DEFINITION. One clock cycle (70_reset_and_hazards.md R191), for any command engine, and the engine of the block as
built. -/

namespace Sys2Proof.Machine

/-- What a cycle needs of the block's build: the meaning of a command, and LATENCY(cmd, operands) (00_scope.md R12).
-/
structure Engine where
  command : Instr → State → Host.Outcome State Fault Refusal
  latency : Word → Regs → Nat

/-- The engine of the block as built: `exec`, with the open latency of Config (logs 1 and 2). -/
def hardwareEngine : Engine where
  command := exec
  latency := fun cw x => Config.latency cw x.toList

/-- A command in any configuration (00_scope.md R11), by the same rules that `exec` applies to the hardware's. -/
def commandIn (c : Cfg) (i : Instr) (s : State) : State :=
  match i with
  | .encodeFlags fc fb fa => encodeFlagsRule fc fb fa s
  | .decodeFlags => decodeFlagsRule s
  | .fq2Sqrt => fq2SqrtRule c s
  | .compress => compressRule c s
  | .compressInf => compressInfRule c s
  | .decompress => decompressRule c s

/-- The engine of a block built with configuration `c` and latency `latency`. -/
def engineIn (c : Cfg) (latency : Word → Regs → Nat) : Engine where
  command := fun i s => .next (commandIn c i s)
  latency := latency

/-- Complete(x, cw) of 70_reset_and_hazards.md R191: the command the word names, or the failure of a word that names
none (10_state.md R40, R41; 30_encoding.md R73). -/
def complete (e : Engine) (cw : Word) (s : State) : Host.Outcome State Fault Refusal :=
  match decode cw with
  | .ok i => e.command i s
  | .error w => .next (raise (illegalDetail w) s)

/-- One clock cycle of 70_reset_and_hazards.md R191 with the inputs `p`: a reset wins (60_exceptions.md R165);
otherwise rd_data is driven from the state at the start of the cycle, an Idle block takes a write, and a Busy block
ignores it and counts down or completes. A count of 0, which R191 rules out (n ≥ 1), completes like a count of 1
(DESIGN CHOICE, safe, log 8). -/
def cycle (e : Engine) (p : PortIn) (s : State) : Host.Outcome State Fault Refusal :=
  if p.rst then .next (resetBlock s)
  else
    let s' := driveRdData p s
    match s.phase with
    | .idle => .next (if p.wrEn then portWrite (e.latency p.wrData s.regs) p.addr p.wrData s' else s')
    | .busy cw n => if n ≤ 1 then complete e cw s' else .next { s' with phase := .busy cw (n - 1) }

/-- The port's inputs in the coming cycle: the host's first pending one, or no access (log 5). -/
def nextInput (s : State) : PortIn := s.pending.headD PortIn.quiet

/-- The state with the coming cycle's inputs taken from the host's list. -/
def takeInput (s : State) : State := { s with pending := s.pending.tail }

/-- The state in which the command word `cw` has been accepted in the last cycle and completes in the coming one,
which makes no access (10_state.md R39; log 7). -/
def readyToComplete (cw : Word) (s : State) : State :=
  { accept cw 1 s with pending := PortIn.quiet :: s.pending }

end Sys2Proof.Machine
end

