-- ==== Sys2Proof/Machine/Step.lean ====
section
/-! DEFINITION. The step: one clock cycle of the block as built, with the host's next inputs (70_reset_and_hazards.md
R191). -/

namespace Sys2Proof.Machine

/-- One clock cycle: the host's next inputs are taken and the block makes the cycle of R191 with them. -/
def step (s : State) : Host.Outcome State Fault Refusal :=
  cycle hardwareEngine (nextInput s) (takeInput s)

/-- `s` with the command word of the table bits `w` accepted, so that the very next step decodes it and runs it. It
stands for the host's CMD write, which is how the block gets a command (10_state.md R39, R42; log 7). -/
def State.withFetchWord (s : State) (nbits w : Nat) : State := readyToComplete (tableWord nbits w) s

end Sys2Proof.Machine
end

