-- ==== Sys2Proof/Machine/HostProgram.lean ====
section
/-! DEFINITION. Host programs (30_encoding.md R76, R77): the notation in which a host drives the port, and what one
line of it does. The host executes these, the block does not (60_exceptions.md R176); `step` does not use this file.
-/

namespace Sys2Proof.Machine

/-- A label of a host program: one its writer chose, or the fresh one of a WAIT (30_encoding.md R77). -/
inductive HostLabel where
  | named (n : Nat)
  | fresh (n : Nat)
deriving DecidableEq, Repr

/-- A line of a host program: the forms of 30_encoding.md R76, then the pseudo-instructions of R77. -/
inductive HostLine where
  /-- WR reg, value -/
  | wr (r : RegName) (v : Word)
  /-- RD reg -/
  | rd (r : RegName)
  /-- CMD mnemonic -/
  | cmd (i : Instr)
  /-- a label, naming the next line -/
  | label (l : HostLabel)
  /-- BRSET reg, bit, label -/
  | brset (r : RegName) (bit : Nat) (l : HostLabel)
  /-- RST -/
  | rst
  /-- NOP -/
  | nop
  /-- the pseudo-instruction WAIT -/
  | wait
  /-- the pseudo-instruction RUN mnemonic -/
  | run (i : Instr)
deriving DecidableEq, Repr

/-- Where the host stands: its next line and the values its RD lines have read, oldest first. -/
structure HostState where
  line : Nat
  reads : List (RegName × Word)
deriving DecidableEq, Repr

/-- The loop that reads STATUS until BUSY = 0, with the fresh label `k` (30_encoding.md R77). -/
def waitLines (k : Nat) : List HostLine := [.label (.fresh k), .brset .status 0 (.fresh k)]

/-- The program with its pseudo-instructions expanded (30_encoding.md R77), fresh labels numbered from `k`. -/
def expandFrom : Nat → List HostLine → List HostLine
  | _, [] => []
  | k, .wait :: rest => waitLines k ++ expandFrom (k + 1) rest
  | k, .run i :: rest => .cmd i :: waitLines k ++ expandFrom (k + 1) rest
  | k, l :: rest => l :: expandFrom k rest

/-- The program with its pseudo-instructions expanded (30_encoding.md R77). -/
def expand (prog : List HostLine) : List HostLine := expandFrom 0 prog

/-- The port cycle of a write (30_encoding.md R76). -/
def writeCycle (r : RegName) (v : Word) : PortIn :=
  { rst := false, addr := r.index, wrEn := true, wrData := v, rdEn := false }

/-- The port cycle of a read (30_encoding.md R76). -/
def readCycle (r : RegName) : PortIn :=
  { rst := false, addr := r.index, wrEn := false, wrData := 0, rdEn := true }

/-- The port cycle a line takes (30_encoding.md R76): none for a label, and none for a pseudo-instruction before its
expansion. -/
def lineCycle : HostLine → Option PortIn
  | .wr r v => some (writeCycle r v)
  | .rd r => some (readCycle r)
  | .cmd i => some (writeCycle .cmd (encode i))
  | .label _ => none
  | .brset r _ _ => some (readCycle r)
  | .rst => some { rst := true, addr := 0, wrEn := false, wrData := 0, rdEn := false }
  | .nop => some PortIn.quiet
  | .wait => none
  | .run _ => none

/-- The place of the line a label names: the first line that holds it, and the end of the program when none does. The
spec speaks neither of a label on two lines nor of a missing one (DESIGN CHOICE, safe: `programWf` refuses both;
log 16). -/
def labelPlace (l : HostLabel) : List HostLine → Nat → Nat
  | [], pos => pos
  | line :: rest, pos => if line = .label l then pos else labelPlace l rest (pos + 1)

/-- The host after a line at place `k` whose cycle showed `rd` on rd_data (30_encoding.md R76). -/
def afterLine (prog : List HostLine) (k : Nat) (rd : Word) (h : HostState) : HostLine → HostState
  | .rd r => { line := k + 1, reads := h.reads ++ [(r, rd)] }
  | .brset _ bit l => { h with line := if rd.getLsbD bit then labelPlace l prog 0 else k + 1 }
  | _ => { h with line := k + 1 }

/-- One line of a host program (30_encoding.md R76): a label takes no cycle, every other line one cycle of the block;
past the last line the host does nothing more. -/
def hostStep (e : Engine) (prog : List HostLine) (h : HostState) (s : State) :
    Host.Outcome (HostState × State) Fault Refusal :=
  match prog[h.line]? with
  | none => .next (h, s)
  | some line =>
    match lineCycle line with
    | none => .next ({ h with line := h.line + 1 }, s)
    | some p =>
      match cycle e p s with
      | .next t => .next (afterLine prog h.line t.rdData h line, t)
      | .fault r => .fault r
      | .refused r => .refused r

/-- At most `fuel` lines of a host program. -/
def hostRun (e : Engine) (prog : List HostLine) : Nat → HostState → State → Host.Outcome (HostState × State) Fault Refusal
  | 0, h, s => .next (h, s)
  | fuel + 1, h, s =>
    match hostStep e prog h s with
    | .next hs => hostRun e prog fuel hs.1 hs.2
    | .fault r => .fault r
    | .refused r => .refused r

/-- The label a line of a host program holds. -/
def labelOf : HostLine → Option HostLabel
  | .label l => some l
  | _ => none

/-- A well-formed source program (30_encoding.md R76): every branch names a bit of a register and a label that some line
holds, no label stands on two lines, and fresh labels are left to the expansion. That the labels are distinct and
present is the model's reading (DESIGN CHOICE, log 16). -/
def programWf (prog : List HostLine) : Bool :=
  decide (prog.filterMap labelOf).Nodup &&
  prog.all fun line =>
    match line with
    | .brset _ bit (.named n) => decide (bit < 384) && prog.contains (.label (.named n))
    | .brset _ _ (.fresh _) => false
    | .label (.fresh _) => false
    | _ => true

end Sys2Proof.Machine
end

