-- ==== Sys2Proof/Safety.lean ====
section
/-! DEFINITION. The terms in which statements speak of the machine: which registers a command reads and writes, what a
command leaves alone, which STATUS values fit a command word, and the invariant of reachable states. -/

namespace Sys2Proof.Machine

/-- The registers a command writes besides STATUS, when it does not fail (10_state.md R30, "written by";
30_encoding.md R72). -/
def writesOf : Instr → List RegName
  | .encodeFlags _ _ _ => [.z1]
  | .decodeFlags => []
  | .fq2Sqrt => [.sRe, .sIm]
  | .compress => [.z1, .z2]
  | .compressInf => [.z1, .z2]
  | .decompress => [.xRe, .xIm, .yRe, .yIm]

/-- The registers a command reads (10_state.md R30, "read by"; 30_encoding.md R72). -/
def readsOf : Instr → List RegName
  | .encodeFlags _ _ _ => [.xIm]
  | .decodeFlags => [.z1]
  | .fq2Sqrt => [.vRe, .vIm]
  | .compress => [.xRe, .xIm, .yRe, .yIm]
  | .compressInf => []
  | .decompress => [.z1, .z2]

/-- `t` is a completion of `s`: the block is Idle, STATUS is `st`, every register but STATUS and those of `changed`
reads as before, and what the port shows and the host has planned is as before. -/
structure CompletesAs (s t : State) (st : Word) (changed : List RegName) : Prop where
  idle : t.phase = .idle
  status : t.regs.get .status = st
  frame : ∀ r : RegName, r ≠ .status → r ∉ changed → t.regs.get r = s.regs.get r
  port : t.rdData = s.rdData ∧ t.draws = s.draws ∧ t.pending = s.pending

/-- The STATUS values a completed command word can leave (10_state.md R35, R37; 60_exceptions.md R164). -/
def StatusFits (cw st : Word) : Prop :=
  match decode cw with
  | .error w => st = failStat (illegalDetail w)
  | .ok (.encodeFlags _ _ _) => st = stat {}
  | .ok .decodeFlags => ∃ fc fb fa : Bool, st = stat { fc := fc, fb := fb, fa := fa }
  | .ok .fq2Sqrt => st ∈ [stat { found := true }, stat {}, failStat .opVRe, failStat .opVIm]
  | .ok .compress => st ∈ [stat {}, failStat .opXRe, failStat .opXIm, failStat .opYRe, failStat .opYIm]
  | .ok .compressInf => st = stat {}
  | .ok .decompress =>
    st ∈ [stat {}, stat { inf := true }, failStat .cFlagClear, failStat .bFlagMismatch, failStat .aFlagOnInfinity,
      failStat .xImRange, failStat .xReRange, failStat .noRoot, failStat .notOnCurve]

/-- The invariant of the machine. While Busy, CMD holds the running word, STATUS is exactly BUSY, and the cycles left
are between 1 and MAX_LATENCY (10_state.md R39; 70_reset_and_hazards.md R186, R191). While Idle, either nothing has
been accepted since reset and CMD and STATUS are 0 (R185), or STATUS is a value that the word in CMD can leave. -/
def StateInv (s : State) : Prop :=
  match s.phase with
  | .busy cw n => s.regs.get .cmd = cw ∧ s.regs.get .status = busyStat ∧ 1 ≤ n ∧ n ≤ Config.maxLatency
  | .idle =>
    (s.regs.get .cmd = 0 ∧ s.regs.get .status = 0) ∨ StatusFits (s.regs.get .cmd) (s.regs.get .status)

/-- `u` is a root of `v` in the configuration: a reduced element whose square is `v` (42_fq2_sqrt.md R110). -/
def IsRoot (c : Cfg) (u v : Fq2) : Prop := u.wf c = true ∧ sqr2 c u = v

/-- x³ + B2, of which DECOMPRESS takes the root (44_decompressor.md R140 step 6). -/
def curveRhs (c : Cfg) (px : Fq2) : Fq2 := add2 c (cube2 c px) c.b2

/-- The state after `k` clock cycles of an engine, the inputs read from a list, with no access past its end. -/
def cyclesOf (e : Engine) : Nat → List PortIn → State → Host.Outcome State Fault Refusal
  | 0, _, s => .next s
  | k + 1, ins, s =>
    match cycle e (ins.headD PortIn.quiet) s with
    | .next t => cyclesOf e k ins.tail t
    | .fault r => .fault r
    | .refused r => .refused r

/-- The state after `k` steps of the machine, its inputs taken from the host's list. -/
def stepsOf : Nat → State → Host.Outcome State Fault Refusal
  | 0, s => .next s
  | k + 1, s =>
    match step s with
    | .next t => stepsOf k t
    | .fault r => .fault r
    | .refused r => .refused r

end Sys2Proof.Machine
end

