-- ==== Sys2Proof/Certificates/Slice0/Obligations.lean ====
section
/-! DEFINITION. The statements about the model, family by family: the command word, the clock cycle, the commands, and
the arithmetic. Rules R16, R21, R32, R75, R105, R111, R112, R117, R120, R131, R135, R142 to R147, R185, R187 and R191
are marked by the spec as derived from other rules, and R22, R110 and R118 as general knowledge; a statement of one of
these has basis derived. Statements over `exec` and `step` are about the block built with CFG_BN254, which 00_scope.md
R11 calls the hardware (log 1), at any latency that R12 allows (log 2). -/

open Sys2Proof Sys2Proof.Machine

/-! ### The command word -/

/-- 30_encoding.md R75: which words select which command, and which bits ENCODE_FLAGS takes as its operands. -/
def Obligations.CommandWordSelectsItsRow : Prop :=
  ∀ cw : Word,
    ((∃ c b a : Bool, decode cw = .ok (.encodeFlags c b a)) ↔ cw &&& ~~~0x70 = 0x1) ∧
    (∀ c b a : Bool, decode cw = .ok (.encodeFlags c b a) →
      c = cw.getLsbD 4 ∧ b = cw.getLsbD 5 ∧ a = cw.getLsbD 6) ∧
    (decode cw = .ok .decodeFlags ↔ cw = 0x2) ∧
    (decode cw = .ok .fq2Sqrt ↔ cw = 0x3) ∧
    (decode cw = .ok .compress ↔ cw = 0x4) ∧
    (decode cw = .ok .compressInf ↔ cw = 0x5) ∧
    (decode cw = .ok .decompress ↔ cw = 0x6)

/-- Decode and encode agree in both directions (30_encoding.md R70 to R75): a word decodes to a command exactly when
it is that command's word, for every word and every operand bit. -/
def Obligations.DecodeEncodeAgree : Prop :=
  ∀ (cw : Word) (i : Instr), i.wf = true → (decode cw = .ok i ↔ cw = encode i)

/-- 30_encoding.md R73: the decode at completion, in its order, the fields taken from the word as a number: a reserved
opcode fails with BAD_OPCODE, then bits 383:7 and, off opcode 1, bits 6:4 fail with RESERVED_BITS, and any other word
runs the command of its opcode. -/
def Obligations.CompletionDecodesInOrder : Prop :=
  ∀ (e : Engine) (cw : Word) (s : State),
    let opc := cw.toNat % 16
    let rsvd := cw.toNat / 128
    let bits := cw.toNat / 16 % 8
    if opc = 0 ∨ 7 ≤ opc then complete e cw s = .next (raise .badOpcode s)
    else if rsvd ≠ 0 then complete e cw s = .next (raise .reservedBits s)
    else if opc ≠ 1 ∧ bits ≠ 0 then complete e cw s = .next (raise .reservedBits s)
    else
      (opc = 1 → complete e cw s = e.command (.encodeFlags (cw.getLsbD 4) (cw.getLsbD 5) (cw.getLsbD 6)) s) ∧
      (opc = 2 → complete e cw s = e.command .decodeFlags s) ∧
      (opc = 3 → complete e cw s = e.command .fq2Sqrt s) ∧
      (opc = 4 → complete e cw s = e.command .compress s) ∧
      (opc = 5 → complete e cw s = e.command .compressInf s) ∧
      (opc = 6 → complete e cw s = e.command .decompress s)

/-- A sanity check of the decoder on words written out from 30_encoding.md R70 and R72 and from 95_test_vectors.md
section 4.7. -/
def Obligations.SampleWordsDecode : Prop :=
  decode 0x51 = .ok (.encodeFlags true false true) ∧ decode 0x2 = .ok .decodeFlags ∧ decode 0x3 = .ok .fq2Sqrt ∧
    decode 0x4 = .ok .compress ∧ decode 0x5 = .ok .compressInf ∧ decode 0x6 = .ok .decompress ∧
    decode 0x7f = .error .badOpcode ∧ decode 0x84 = .error .reservedBits ∧ decode 0x46 = .error .reservedBits

/-! ### The clock cycle -/

/-- 10_state.md R40 and R41 with 70_reset_and_hazards.md R191: in the cycle in which the count runs out and no reset
is given, the step is the command that the latched word names, after rd_data has been driven for that cycle; a word
that names no command (60_exceptions.md R163) completes with ERR, ECODE 5 and its EDETAIL instead, every register but
STATUS as before. -/
def Obligations.StepRunsTheDecodedCommand : Prop :=
  (∀ (s : State) (cw : Word) (i : Instr), s.phase = .busy cw 1 → (nextInput s).rst = false → decode cw = .ok i → i.wf = true →
    step s = exec i (driveRdData (nextInput s) (takeInput s))) ∧
  (∀ (s : State) (cw : Word) (w : IllegalWord), s.phase = .busy cw 1 → (nextInput s).rst = false → decode cw = .error w →
    ∃ t : State, step s = .next t ∧ t.phase = .idle ∧
      t.regs.get .status = (match w with | .badOpcode => 0x72e | .reservedBits => 0x7ae) ∧
      ∀ r : RegName, r ≠ .status → t.regs.get r = s.regs.get r)

/-- The step after `withFetchWord` runs exactly the command whose word was placed (the model's own statement, log 7;
it rests on 70_reset_and_hazards.md R191). -/
def Obligations.PlacedWordRunsNext : Prop :=
  ∀ (s : State) (i : Instr),
    step (s.withFetchWord 384 (encode i).toNat) = exec i (drawRdData (accept (encode i) 1 s))

/-- 10_state.md R39: an Idle block accepts any word written to CMD, and a Busy block accepts none: it leaves CMD as it
is and starts no command. The count accepted lies in 1 to MAX_LATENCY (70_reset_and_hazards.md R186). An illegal word,
once accepted, fails at completion with the detail its decode names (30_encoding.md R73), every register but STATUS as
before. -/
def Obligations.AcceptanceTakesTheWord : Prop :=
  (∀ (s : State) (cw : Word), s.phase = .idle → (nextInput s).rst = false → (nextInput s).wrEn = true →
      (nextInput s).addr = 0 → (nextInput s).wrData = cw →
    ∃ (n : Nat) (t : State), step s = .next t ∧ 1 ≤ n ∧ n ≤ Config.maxLatency ∧ t.phase = .busy cw n ∧
      t.regs.get .cmd = cw ∧ t.regs.get .status = 1 ∧
      ∀ r : RegName, r ≠ .cmd → r ≠ .status → t.regs.get r = s.regs.get r) ∧
  (∀ (s : State) (cw : Word) (n : Nat), s.phase = .busy cw n → (nextInput s).rst = false →
    ∃ t : State, step s = .next t ∧ t.regs.get .cmd = s.regs.get .cmd ∧
      (t.phase = .idle ∨ ∃ m : Nat, m < n ∧ t.phase = .busy cw m)) ∧
  (∀ (s : State) (cw : Word) (w : IllegalWord), s.phase = .busy cw 1 → (nextInput s).rst = false →
      decode cw = .error w →
    ∃ t : State, step s = .next t ∧ t.phase = .idle ∧ statErr (t.regs.get .status) = true ∧
      t.regs.get .status = failStat (illegalDetail w) ∧
      ∀ r : RegName, r ≠ .status → t.regs.get r = s.regs.get r)

/-- 10_state.md R34: CMD holds the last accepted word. Every step gives it 0 in a reset cycle, the written word at
acceptance, and otherwise what it held; after reset it is 0, which names no command. -/
def Obligations.CmdHoldsTheLastAcceptedWord : Prop :=
  (∀ s : State, ∃ t : State, step s = .next t ∧
    t.regs.get .cmd =
      if (nextInput s).rst = true then 0
      else if s.phase = .idle ∧ (nextInput s).wrEn = true ∧ (nextInput s).addr = 0 then (nextInput s).wrData
      else s.regs.get .cmd) ∧
  State.reset.regs.get .cmd = 0 ∧ decode 0 = .error .badOpcode

/-- 20_memory.md R52, a data register: an Idle write to index 2 to 11 gives that register the value and changes no
other register, and an acceptance in the next cycle still finds it there. -/
def Obligations.IdleWriteSetsTheDataRegister : Prop :=
  ∀ (s : State) (r : RegName), s.phase = .idle → r.isData = true → (nextInput s).rst = false → (nextInput s).wrEn = true →
      (nextInput s).addr = r.index →
    ∃ t : State, step s = .next t ∧ t.phase = .idle ∧ t.regs.get r = (nextInput s).wrData ∧
      (∀ r' : RegName, r' ≠ r → t.regs.get r' = s.regs.get r') ∧
      ∀ cw : Word, ∃ (n : Nat) (u : State), step { t with pending := [writeCycle .cmd cw] } = .next u ∧
        u.phase = .busy cw n ∧ u.regs.get r = (nextInput s).wrData

/-- 10_state.md R36: a host write to STATUS is ignored in every phase, for every build: the cycle is the cycle without
an access. -/
def Obligations.StatusWritesAreIgnored : Prop :=
  ∀ (e : Engine) (p : PortIn) (s : State), p.rst = false → p.wrEn = true → p.addr = 1 → cycle e p s = cycle e PortIn.quiet s

/-- 10_state.md R33: indices 12 to 15 hold no state: a read of one returns 0 and a write to one is a cycle without an
access, in every phase and for every build. -/
def Obligations.ReservedIndicesHoldNoState : Prop :=
  ∀ i : PortIndex, 12 ≤ i.toNat →
    (∀ s : State, portRead s i = some 0) ∧
    (∀ (e : Engine) (p : PortIn) (s : State), p.rst = false → p.wrEn = true → p.addr = i → cycle e p s = cycle e PortIn.quiet s)

/-- 20_memory.md R53: a write while Busy changes nothing, whatever the index and the value: the cycle is the cycle
without an access, so no status bit records it either. -/
def Obligations.BusyWritesAreDropped : Prop :=
  ∀ (e : Engine) (p : PortIn) (s : State) (cw : Word) (n : Nat), s.phase = .busy cw n → p.rst = false → p.wrEn = true →
    cycle e p s = cycle e PortIn.quiet s

/-- 20_memory.md R54: what a read cycle shows on rd_data, from the state at the start of the cycle (60_exceptions.md
R165): CMD and STATUS in every phase, 0 at a reserved index, a data register while Idle, and a fresh unspecified value
of it while Busy (the draw is the model's form of it, log 3). -/
def Obligations.ReadShowsTheRegister : Prop :=
  ∀ s : State, (nextInput s).rst = false → (nextInput s).rdEn = true → (nextInput s).wrEn = false →
    ∃ t : State, step s = .next t ∧
      ((nextInput s).addr = 0 → t.rdData = s.regs.get .cmd) ∧
      ((nextInput s).addr = 1 → t.rdData = s.regs.get .status) ∧
      (12 ≤ (nextInput s).addr.toNat → t.rdData = 0) ∧
      (∀ r : RegName, r.isData = true → (nextInput s).addr = r.index →
        (s.phase = .idle → t.rdData = s.regs.get r) ∧
        (s.phase ≠ .idle → t.rdData = Config.freeWord s.draws ∧ t.draws = s.draws + 1))

/-- 20_memory.md R55: no read has a side effect: whatever index a cycle reads, registers and phase after it are those
after the same cycle without the read. -/
def Obligations.ReadsHaveNoSideEffect : Prop :=
  ∀ (p : PortIn) (s : State), p.rst = false → p.wrEn = false →
    ∃ t u : State, cycle hardwareEngine p s = .next t ∧ cycle hardwareEngine PortIn.quiet s = .next u ∧
      t.regs = u.regs ∧ t.phase = u.phase

/-- 20_memory.md R51, both strobes at once: the write is performed as if alone, and rd_data shows an unspecified value
(the draw is the model's form of it, log 3). -/
def Obligations.CollisionPerformsTheWrite : Prop :=
  ∀ (p : PortIn) (s : State), p.rst = false → p.wrEn = true → p.rdEn = true →
    ∃ t : State, cycle hardwareEngine p s = .next t ∧ cycle hardwareEngine { p with rdEn := false } s = .next t ∧
      t.rdData = Config.freeWord s.draws ∧ t.draws = s.draws + 1

/-- 70_reset_and_hazards.md R180 of the reset state: every register reads 0, every index of the port reads 0, and the
phase is Idle. -/
def Obligations.ResetStateIsAllZero : Prop :=
  (∀ r : RegName, State.reset.regs.get r = 0) ∧ (∀ i : PortIndex, portRead State.reset i = some 0) ∧
    State.reset.phase = .idle

/-- 70_reset_and_hazards.md R182 (with R181): a reset cycle while Busy leaves the reset state, with DONE = 0; and
without a reset a Busy block either goes on with the same word or completes it. -/
def Obligations.OnlyResetAbortsACommand : Prop :=
  ∀ (s : State) (cw : Word) (n : Nat), s.phase = .busy cw n →
    ((nextInput s).rst = true → ∃ t : State, step s = .next t ∧ t.regs = State.reset.regs ∧ t.phase = State.reset.phase ∧
      statDone (t.regs.get .status) = false) ∧
    ((nextInput s).rst = false → ∃ t : State, step s = .next t ∧
      ((t.phase = .busy cw (n - 1) ∧ t.regs = s.regs) ∨
        complete hardwareEngine cw (driveRdData (nextInput s) (takeInput s)) = .next t))

/-- 60_exceptions.md R165 and 70_reset_and_hazards.md R181: a cycle with rst = 1 gives the reset state's registers and
phase, whatever the state and the access were; rd_data is an unspecified value (the draw is the model's form of it,
log 3). -/
def Obligations.ResetWinsOverEverything : Prop :=
  ∀ (e : Engine) (p : PortIn) (s : State), p.rst = true →
    ∃ t : State, cycle e p s = .next t ∧ t.regs = State.reset.regs ∧ t.phase = State.reset.phase ∧
      t.rdData = Config.freeWord s.draws

/-- The reset state meets the invariant (70_reset_and_hazards.md R180, R185). -/
def Obligations.ResetMeetsTheInvariant : Prop := StateInv State.reset

/-- Every step keeps the invariant of `StateInv`, from every state that meets it (10_state.md R34 to R39;
70_reset_and_hazards.md R186): while Busy, CMD is the running word, STATUS is exactly BUSY and the count lies in 1 to
MAX_LATENCY; while Idle, STATUS is 0 with CMD 0 or a value the word in CMD can leave. -/
def Obligations.EveryStepKeepsTheInvariant : Prop :=
  ∀ s t : State, StateInv s → step s = .next t → StateInv t

/-- 10_state.md R35 of every state that meets the invariant: bits 383:16 of STATUS are 0, BUSY is set exactly while
Busy, and BUSY and DONE are never both set. -/
def Obligations.StatusReservedBitsStayZero : Prop :=
  ∀ s : State, StateInv s →
    (s.regs.get .status).toNat < 2 ^ 16 ∧
    (statBusy (s.regs.get .status) = true ↔ s.phase ≠ .idle) ∧
    ¬ (statBusy (s.regs.get .status) = true ∧ statDone (s.regs.get .status) = true)

/-- 70_reset_and_hazards.md R185, one step at a time: a state whose STATUS is 0 comes from a reset cycle, or from an
Idle state with STATUS 0 by a cycle that accepted nothing. -/
def Obligations.StatusZeroMeansNothingAccepted : Prop :=
  ∀ s t : State, StateInv s → step s = .next t → t.regs.get .status = 0 →
    (nextInput s).rst = true ∨
      (s.regs.get .status = 0 ∧ s.phase = .idle ∧ t.phase = .idle ∧ t.regs.get .cmd = s.regs.get .cmd)

/-- 10_state.md R40 with 70_reset_and_hazards.md R186: from an Idle state in which the host writes a word to CMD and
gives no reset after it, there is a latency n from 1 to MAX_LATENCY such that the block is Busy with its registers as
accepted in the n states after acceptance, whatever the host accesses, and after n + 1 steps it is Idle with the
registers of the word's completion. -/
def Obligations.AcceptedCommandCompletes : Prop :=
  ∀ (s : State) (cw : Word), s.phase = .idle → (nextInput s).rst = false → (nextInput s).wrEn = true → (nextInput s).addr = 0 →
      (nextInput s).wrData = cw → (∀ p ∈ s.pending.tail, p.rst = false) →
    ∃ (n : Nat) (t u : State), 1 ≤ n ∧ n ≤ Config.maxLatency ∧
      stepsOf (n + 1) s = .next t ∧
      complete hardwareEngine cw (accept cw n s) = .next u ∧
      t.phase = .idle ∧ t.regs = u.regs ∧
      ∀ k : Nat, 1 ≤ k → k ≤ n → ∃ m : State, stepsOf k s = .next m ∧
        m.phase = .busy cw (n + 1 - k) ∧ m.regs = (accept cw n s).regs

/-- 70_reset_and_hazards.md R186: no result depends on LATENCY's value: for every configuration and every two
latencies, a command accepted from the same Idle state ends with the same registers, whatever the host accesses
meanwhile. -/
def Obligations.ResultsDoNotDependOnLatency : Prop :=
  ∀ (c : Cfg) (lat lat' : Word → Regs → Nat) (s : State) (cw : Word) (ins ins' : List PortIn), s.phase = .idle →
      1 ≤ lat cw s.regs → 1 ≤ lat' cw s.regs → (∀ p ∈ ins, p.rst = false) → (∀ p ∈ ins', p.rst = false) →
    ∃ t t' : State,
      cyclesOf (engineIn c lat) (lat cw s.regs + 1) (writeCycle .cmd cw :: ins) s = .next t ∧
      cyclesOf (engineIn c lat') (lat' cw s.regs + 1) (writeCycle .cmd cw :: ins') s = .next t' ∧
      t.phase = .idle ∧ t'.phase = .idle ∧ t.regs = t'.regs

/-- 30_encoding.md R76: the port cycle of each form of a host program's lines (what the form does not use of the
signals is left open), and what the host does after it: an RD appends the value read, a BRSET goes to its label exactly
when the bit read is 1, and every other line goes on to the next. A label takes no cycle, and a label that some line
holds is found at such a line (of several, the first: the model's choice, log 16). -/
def Obligations.HostLineTakesOneCycle : Prop :=
  [RegName.cmd, .status, .z1, .z2, .xRe, .xIm, .yRe, .yIm, .vRe, .vIm, .sRe, .sIm].map RegName.index =
    [0, 1, 2, 3, 4, 5, 6, 7, 8, 9, 10, 11] ∧
  (∀ (r : RegName) (v : Word),
    lineCycle (.wr r v) = some { rst := false, addr := r.index, wrEn := true, wrData := v, rdEn := false }) ∧
  (∀ r : RegName, ∃ v : Word,
    lineCycle (.rd r) = some { rst := false, addr := r.index, wrEn := false, wrData := v, rdEn := true }) ∧
  (∀ (r : RegName) (bit : Nat) (l : HostLabel), lineCycle (.brset r bit l) = lineCycle (.rd r)) ∧
  (∀ c b a : Bool, lineCycle (.cmd (.encodeFlags c b a)) =
    lineCycle (.wr .cmd (BitVec.ofNat 384 (0x1 + 16 * c.toNat + 32 * b.toNat + 64 * a.toNat)))) ∧
  lineCycle (.cmd .decodeFlags) = lineCycle (.wr .cmd 0x2) ∧ lineCycle (.cmd .fq2Sqrt) = lineCycle (.wr .cmd 0x3) ∧
  lineCycle (.cmd .compress) = lineCycle (.wr .cmd 0x4) ∧ lineCycle (.cmd .compressInf) = lineCycle (.wr .cmd 0x5) ∧
  lineCycle (.cmd .decompress) = lineCycle (.wr .cmd 0x6) ∧
  (∃ p : PortIn, lineCycle .rst = some p ∧ p.rst = true ∧ p.wrEn = false ∧ p.rdEn = false) ∧
  (∃ p : PortIn, lineCycle .nop = some p ∧ p.rst = false ∧ p.wrEn = false ∧ p.rdEn = false) ∧
  (∀ (e : Engine) (prog : List HostLine) (h : HostState) (s t : State) (line : HostLine) (p : PortIn),
    prog[h.line]? = some line → lineCycle line = some p → cycle e p s = .next t →
    ∃ h' : HostState, hostStep e prog h s = .next (h', t) ∧
      (∀ r : RegName, line = .rd r → h'.line = h.line + 1 ∧ h'.reads = h.reads ++ [(r, t.rdData)]) ∧
      (∀ (r : RegName) (bit : Nat) (l : HostLabel), line = .brset r bit l →
        h'.reads = h.reads ∧ h'.line = if t.rdData.getLsbD bit = true then labelPlace l prog 0 else h.line + 1) ∧
      (∀ (r : RegName) (v : Word), line = .wr r v → h' = { h with line := h.line + 1 }) ∧
      (∀ i : Instr, line = .cmd i → h' = { h with line := h.line + 1 }) ∧
      (line = .rst → h' = { h with line := h.line + 1 }) ∧
      (line = .nop → h' = { h with line := h.line + 1 })) ∧
  (∀ (e : Engine) (prog : List HostLine) (h : HostState) (s : State) (l : HostLabel), prog[h.line]? = some (.label l) →
    hostStep e prog h s = .next ({ h with line := h.line + 1 }, s)) ∧
  (∀ (prog : List HostLine) (l : HostLabel), HostLine.label l ∈ prog → prog[labelPlace l prog 0]? = some (.label l))

/-! ### STATUS and failures -/

/-- 10_state.md R37: the value of Stat, and its fields read back: DONE = 1, BUSY = 0, every field its argument,
nothing above bit 15. -/
def Obligations.StatSetsEveryField : Prop :=
  ∀ f : StatArgs, f.ecode < 16 → f.edet < 16 →
    (stat f).toNat = 2 + 4 * f.err.toNat + 8 * f.ecode + 128 * f.edet + 2048 * f.inf.toNat + 4096 * f.found.toNat +
      8192 * f.fc.toNat + 16384 * f.fb.toNat + 32768 * f.fa.toNat ∧
    statBusy (stat f) = false ∧ statDone (stat f) = true ∧ statErr (stat f) = f.err ∧ statEcode (stat f) = f.ecode ∧
    statEdetail (stat f) = f.edet ∧ statInf (stat f) = f.inf ∧ statFound (stat f) = f.found ∧ statFc (stat f) = f.fc ∧
    statFb (stat f) = f.fb ∧ statFa (stat f) = f.fa ∧ (stat f).toNat < 2 ^ 16

/-- 60_exceptions.md R163, with R162's table: raising a failure writes STATUS = Stat(err = 1, ecode, edet), returns to
Idle, and changes nothing else; and the fifteen STATUS values are those of the table's last column. -/
def Obligations.RaiseChangesOnlyStatus : Prop :=
  (∀ (d : Detail) (s : State), CompletesAs s (raise d s) (stat { err := true, ecode := d.kind.code, edet := d.code }) []) ∧
  [Detail.cFlagClear, .bFlagMismatch, .aFlagOnInfinity, .xImRange, .xReRange, .noRoot, .notOnCurve, .opXRe, .opXIm, .opYRe, .opYIm,
      .opVRe, .opVIm, .badOpcode, .reservedBits].map failStat =
    [0x8e, 0x10e, 0x18e, 0x216, 0x296, 0x31e, 0x3a6, 0x416, 0x496, 0x516, 0x596, 0x616, 0x696, 0x72e, 0x7ae]

/-- 60_exceptions.md R160 and R166, of every command: one that ends with ERR = 1 has changed nothing but STATUS and
the phase, and its STATUS is that of one of the details. -/
def Obligations.FailingCommandKeepsItsOperands : Prop :=
  ∀ (i : Instr) (s : State), ∃ t : State, exec i s = .next t ∧
    (statErr (t.regs.get .status) = true →
      ∃ d : Detail, CompletesAs s t (failStat d) [] ∧ ∀ r ∈ d.offending, t.regs.get r = s.regs.get r)

/-- 10_state.md R30, the "written by" column, and R40: every command completes, with STATUS.DONE = 1 and BUSY = 0, and
changes no register but STATUS and those the column gives it. -/
def Obligations.CommandsWriteOnlyTheirRegisters : Prop :=
  ∀ (i : Instr) (s : State), ∃ (t : State) (st : Word), exec i s = .next t ∧ CompletesAs s t st (writesOf i) ∧
    statDone st = true ∧ statBusy st = false ∧ st.toNat < 2 ^ 16

/-- 10_state.md R32, the "read by" column: what a command leaves in STATUS and in the registers it writes depends only
on the registers it reads, of which it writes none. -/
def Obligations.CommandsDependOnlyOnWhatTheyRead : Prop :=
  (∀ (i : Instr) (r : RegName), r ∈ readsOf i → r ∉ writesOf i) ∧
  (∀ (i : Instr) (s s' : State), (∀ r ∈ readsOf i, s.regs.get r = s'.regs.get r) →
    ∃ t t' : State, exec i s = .next t ∧ exec i s' = .next t' ∧ t.regs.get .status = t'.regs.get .status ∧
      ((∀ r ∈ writesOf i, t.regs.get r = t'.regs.get r) ∨
        (∀ r ∈ writesOf i, t.regs.get r = s.regs.get r ∧ t'.regs.get r = s'.regs.get r)))

/-! ### FlagCodec -/

/-- 41_flag_codec.md R103: ENCODE_FLAGS, the word 0x1 + 16·c + 32·b + 64·a, completes from every state with STATUS =
0x2; Z1 holds the three bits over bits 380:0 of X_IM, and nothing else changes. -/
def Obligations.EncodeFlagsResult : Prop :=
  ∀ (c b a : Bool) (s : State),
    decode (BitVec.ofNat 384 (0x1 + 16 * c.toNat + 32 * b.toNat + 64 * a.toNat)) = .ok (.encodeFlags c b a) ∧
    ∃ t : State, exec (.encodeFlags c b a) s = .next t ∧ CompletesAs s t 0x2 [.z1] ∧
      (t.regs.get .z1).toNat =
        c.toNat * 2 ^ 383 + b.toNat * 2 ^ 382 + a.toNat * 2 ^ 381 + (s.regs.get .xIm).toNat % 2 ^ 381

/-- 41_flag_codec.md R104: DECODE_FLAGS, the word 0x2, completes from every state; FC, FB and FA are bits 383, 382 and
381 of Z1, DONE is set, and no other register changes. -/
def Obligations.DecodeFlagsResult : Prop :=
  decode 0x2 = .ok .decodeFlags ∧ ∀ s : State, ∃ t : State, exec .decodeFlags s = .next t ∧
    CompletesAs s t (stat { fc := (s.regs.get .z1).getLsbD 383, fb := (s.regs.get .z1).getLsbD 382, fa := (s.regs.get .z1).getLsbD 381 }) [] ∧
    (t.regs.get .status).toNat = 2 + 8192 * ((s.regs.get .z1).getLsbD 383).toNat + 16384 * ((s.regs.get .z1).getLsbD 382).toNat +
      32768 * ((s.regs.get .z1).getLsbD 381).toNat

/-- 41_flag_codec.md R105: the codec's laws, for every word. -/
def Obligations.CodecLaws : Prop :=
  (∀ (c b a : Bool) (p : Word), decodeFlags (encodeFlags c b a p) = (c, b, a) ∧
    (encodeFlags c b a p).toNat % 2 ^ 381 = p.toNat % 2 ^ 381) ∧
  (∀ z : Word, encodeFlags (decodeFlags z).1 (decodeFlags z).2.1 (decodeFlags z).2.2 z = z) ∧
  (∀ (a : Bool) (xIm : Nat), xIm < 2 ^ 381 →
    xIm + a.toNat * 2 ^ 381 + 2 ^ 383 = (encodeFlags true false a (wordOf xIm)).toNat)

/-! ### Compressor -/

/-- 43_compressor.md R131: the sign flag's laws and boundary values, for every configuration whose shape R8 allows. -/
def Obligations.SignFlagLaws : Prop :=
  ∀ c : Cfg, c.wf = true →
    (∀ y : Fq2, y.wf c = true →
      (aFlag c y = 0 ∨ aFlag c y = 1) ∧
      (aFlag c y = 1 ↔ (c.q + 1) / 2 ≤ if 0 < y.im then y.im else y.re) ∧
      (y ≠ zero2 → aFlag c (neg2 c y) = 1 - aFlag c y)) ∧
    aFlag c zero2 = 0 ∧
    aFlag c ⟨(c.q - 1) / 2, 0⟩ = 0 ∧ aFlag c ⟨(c.q + 1) / 2, 0⟩ = 1 ∧
    aFlag c ⟨0, (c.q - 1) / 2⟩ = 0 ∧ aFlag c ⟨0, (c.q + 1) / 2⟩ = 1 ∧ aFlag c ⟨c.q - 1, 1⟩ = 0

/-- 43_compressor.md R132: with its four operands field elements, COMPRESS completes with STATUS = 0x2, Z1 = X_IM +
a·2^381 + 2^383 with a the sign flag of Y (R130, written out), Z2 = X_RE, and nothing else changes; Z1 is
encodeFlags(1, 0, a, X_IM). -/
def Obligations.CompressResult : Prop :=
  ∀ s : State,
    natOf s.regs .xRe < Config.hardware.q → natOf s.regs .xIm < Config.hardware.q →
    natOf s.regs .yRe < Config.hardware.q → natOf s.regs .yIm < Config.hardware.q →
    ∃ (t : State) (a : Bool), exec .compress s = .next t ∧ CompletesAs s t 0x2 [.z1, .z2] ∧
      a.toNat = (if 0 < natOf s.regs .yIm then 2 * natOf s.regs .yIm / Config.hardware.q
        else 2 * natOf s.regs .yRe / Config.hardware.q) ∧
      natOf t.regs .z1 = natOf s.regs .xIm + a.toNat * 2 ^ 381 + 2 ^ 383 ∧
      t.regs.get .z1 = encodeFlags true false a (s.regs.get .xIm) ∧
      t.regs.get .z2 = s.regs.get .xRe

/-- 43_compressor.md R133: the first operand of COMPRESS that is no field element, in register order, gives its
RangeError, and no data register changes. -/
def Obligations.CompressRangeErrors : Prop :=
  ∀ s : State, ∃ t : State, exec .compress s = .next t ∧
    (Config.hardware.q ≤ natOf s.regs .xRe → CompletesAs s t 0x416 []) ∧
    (natOf s.regs .xRe < Config.hardware.q → Config.hardware.q ≤ natOf s.regs .xIm → CompletesAs s t 0x496 []) ∧
    (natOf s.regs .xRe < Config.hardware.q → natOf s.regs .xIm < Config.hardware.q →
      Config.hardware.q ≤ natOf s.regs .yRe → CompletesAs s t 0x516 []) ∧
    (natOf s.regs .xRe < Config.hardware.q → natOf s.regs .xIm < Config.hardware.q → natOf s.regs .yRe < Config.hardware.q →
      Config.hardware.q ≤ natOf s.regs .yIm → CompletesAs s t 0x596 [])

/-- 43_compressor.md R134: COMPRESS_INF, the word 0x5, completes from every state with Z1 = 2^383 + 2^382, Z2 = 0 and
STATUS = 0x2, and nothing else changes. -/
def Obligations.CompressInfResult : Prop :=
  decode 0x5 = .ok .compressInf ∧ ∀ s : State, ∃ t : State, exec .compressInf s = .next t ∧ CompletesAs s t 0x2 [.z1, .z2] ∧
    natOf t.regs .z1 = 2 ^ 383 + 2 ^ 382 ∧ natOf t.regs .z2 = 0

/-- 43_compressor.md R135: compression writes only Z1, Z2 and STATUS. In every configuration the result of COMPRESS
depends only on its operand registers and Q: states that agree on X and Y end with the same STATUS, and with the same
Z1 and Z2, or with those of before when the command fails. COMPRESS_INF depends on no register. BETA and B2 play no
part. -/
def Obligations.CompressionIsPure : Prop :=
  (∀ i ∈ [Instr.compress, Instr.compressInf], ∀ s : State, ∃ (t : State) (st : Word), exec i s = .next t ∧
    CompletesAs s t st [.z1, .z2]) ∧
  (∀ (c : Cfg), ∀ i ∈ [Instr.compress, Instr.compressInf], ∀ s : State, ∃ st : Word,
    CompletesAs s (commandIn c i s) st [.z1, .z2]) ∧
  (∀ (c c' : Cfg) (s : State), c.q = c'.q →
    commandIn c .compress s = commandIn c' .compress s ∧ commandIn c .compressInf s = commandIn c' .compressInf s) ∧
  (∀ (c c' : Cfg) (s s' : State), c.q = c'.q →
      (∀ r ∈ [RegName.xRe, .xIm, .yRe, .yIm], s.regs.get r = s'.regs.get r) →
    (commandIn c .compress s).regs.get .status = (commandIn c' .compress s').regs.get .status ∧
    ∀ r ∈ [RegName.z1, .z2],
      if statErr ((commandIn c .compress s).regs.get .status) = true then
        (commandIn c .compress s).regs.get r = s.regs.get r ∧ (commandIn c' .compress s').regs.get r = s'.regs.get r
      else (commandIn c .compress s).regs.get r = (commandIn c' .compress s').regs.get r) ∧
  (∀ (c c' : Cfg) (s s' : State), ∀ r ∈ [RegName.z1, .z2, .status],
    (commandIn c .compressInf s).regs.get r = (commandIn c' .compressInf s').regs.get r)

/-! ### FQ2_SQRT and the square root -/

/-- 42_fq2_sqrt.md R119 over the model's square root: FQ2_SQRT completes from every state: RangeError at the first
operand that is no field element, otherwise the root into S with FOUND = 1, or STATUS = 0x2 alone when there is none.
-/
def Obligations.Fq2SqrtResult : Prop :=
  ∀ s : State, ∃ t : State, exec .fq2Sqrt s = .next t ∧
    if Config.hardware.q ≤ natOf s.regs .vRe then CompletesAs s t 0x616 []
    else if Config.hardware.q ≤ natOf s.regs .vIm then CompletesAs s t 0x696 []
    else
      match sqrtFq2 Config.hardware ⟨natOf s.regs .vRe, natOf s.regs .vIm⟩ with
      | none => CompletesAs s t 0x2 []
      | some root => CompletesAs s t 0x1002 [.sRe, .sIm] ∧ t.regs.get .sRe = wordOf root.re ∧ t.regs.get .sIm = wordOf root.im

/-- 42_fq2_sqrt.md R119 with R113 as the meaning of SqrtFQ2: FQ2_SQRT, the word 0x3, completes from every state; it
fails at the first operand that is no field element; otherwise V has a root in FQ2 exactly when FOUND = 1, and then S
is the canonical one of every root and its negative; without a root S is unchanged. -/
def Obligations.Fq2SqrtMeetsItsContract : Prop :=
  decode 0x3 = .ok .fq2Sqrt ∧ ∀ s : State, ∃ t : State, exec .fq2Sqrt s = .next t ∧
    (Config.hardware.q ≤ natOf s.regs .vRe → CompletesAs s t 0x616 []) ∧
    (natOf s.regs .vRe < Config.hardware.q → Config.hardware.q ≤ natOf s.regs .vIm → CompletesAs s t 0x696 []) ∧
    (natOf s.regs .vRe < Config.hardware.q → natOf s.regs .vIm < Config.hardware.q →
      (HasRoot Config.hardware (fq2Of s.regs .vRe .vIm) → CompletesAs s t 0x1002 [.sRe, .sIm] ∧
        ∀ y : Fq2, IsRoot Config.hardware y (fq2Of s.regs .vRe .vIm) →
          fq2Of t.regs .sRe .sIm = canon y (neg2 Config.hardware y)) ∧
      (¬ HasRoot Config.hardware (fq2Of s.regs .vRe .vIm) → CompletesAs s t 0x2 []))

/-- 42_fq2_sqrt.md R113: in every configuration that meets R8 to R10, the model's square root is SqrtFQ2: None exactly
for a non-square, and otherwise Canon(y, neg2(y)) for every root y. -/
def Obligations.SquareRootMeetsItsContract : Prop :=
  ∀ (c : Cfg) (v : Fq2), c.Valid → v.wf c = true → SqrtContract c v (sqrtFq2 c v)

/-- 42_fq2_sqrt.md R110: a nonzero element is a square exactly when its norm to the power (Q−1)/2 is 1; ZERO2 is a
square. -/
def Obligations.SquareTestByTheNorm : Prop :=
  ∀ c : Cfg, c.Valid →
    HasRoot c zero2 ∧
    ∀ v : Fq2, v.wf c = true → v ≠ zero2 → (HasRoot c v ↔ fpow c (norm2 c v) ((c.q - 1) / 2) = 1)

/-- 42_fq2_sqrt.md R111: the roots of a nonzero square are exactly y and neg2(y), which differ; ZERO2 has only the
root ZERO2. -/
def Obligations.RootsComeInPairs : Prop :=
  ∀ c : Cfg, c.Valid →
    (∀ v y : Fq2, v ≠ zero2 → IsRoot c y v → y ≠ neg2 c y ∧ ∀ u : Fq2, IsRoot c u v ↔ u = y ∨ u = neg2 c y) ∧
    (∀ u : Fq2, IsRoot c u zero2 ↔ u = zero2)

/-- 42_fq2_sqrt.md R112: the canonical choice, and its independence of the order of a root and its negative. -/
def Obligations.CanonicalChoiceIsSymmetric : Prop :=
  (∀ u1 u2 : Fq2, canon u1 u2 = if u1.im > u2.im ∨ (u1.im = u2.im ∧ u1.re > u2.re) then u1 else u2) ∧
  (∀ (c : Cfg) (u : Fq2), c.wf = true → u.wf c = true → neg2 c u ≠ u → canon u (neg2 c u) = canon (neg2 c u) u)

/-- 42_fq2_sqrt.md R120 and 44_decompressor.md R143: the canonical root of a nonzero element has sign flag 1, so the
sign correction keeps it for a = 1 and negates it for a = 0. -/
def Obligations.CanonicalRootHasSignOne : Prop :=
  ∀ (c : Cfg) (v r : Fq2), c.Valid → v.wf c = true → v ≠ zero2 → sqrtFq2 c v = some r →
    aFlag c r = 1 ∧ aFlag c (neg2 c r) = 0

/-- 42_fq2_sqrt.md R114: the root of ZERO2 is ZERO2 in every configuration, and FQ2_SQRT with V = (0, 0) completes
with S = (0, 0) and FOUND = 1. -/
def Obligations.RootOfZero : Prop :=
  (∀ c : Cfg, sqrtFq2 c zero2 = some zero2) ∧
  (∀ s : State, s.regs.get .vRe = 0 → s.regs.get .vIm = 0 →
    ∃ t : State, exec .fq2Sqrt s = .next t ∧ CompletesAs s t 0x1002 [.sRe, .sIm] ∧ t.regs.get .sRe = 0 ∧ t.regs.get .sIm = 0)

/-- 42_fq2_sqrt.md R118: the spec's reference method gives the same result as the model's square root, for BETA = −1
in every configuration that meets R8. -/
def Obligations.ReferenceMethodAgrees : Prop :=
  ∀ (c : Cfg) (v : Fq2), c.Valid → c.beta = c.q - 1 → v.wf c = true → sqrtReference c v = sqrtFq2 c v

/-- 42_fq2_sqrt.md R117, one direction: with BETA = −1 and Q ≡ 3 (mod 8), the source's algorithm of R116 gives SqrtFQ2
on every nonzero element. -/
def Obligations.SourceAlgorithmAgreesForThreeModEight : Prop :=
  ∀ (c : Cfg) (v : Fq2), c.Valid → c.beta = c.q - 1 → c.q % 8 = 3 → v.wf c = true → v ≠ zero2 → sqrtSource c v = sqrtFq2 c v

/-! ### Decompressor -/

/-- 44_decompressor.md R140: DECOMPRESS, the word 0x6, completes from every state with the outcome of its validation
sequence, each failure at the first check that fails and with no data register changed. A finite point whose x³ + B2
has a root is written as X = x and Y = the canonical one of any root and its negative, negated when its sign flag is
not a; it is on the curve (step 8). -/
def Obligations.DecompressFollowsItsValidation : Prop :=
  decode 0x6 = .ok .decompress ∧ ∀ s : State, ∃ t : State, exec .decompress s = .next t ∧
    let a := ((s.regs.get .z1).getLsbD 381).toNat
    let xIm := natOf s.regs .z1 % 2 ^ 381
    let z2 := natOf s.regs .z2
    if (s.regs.get .z1).getLsbD 383 = false then CompletesAs s t 0x8e []
    else if (s.regs.get .z1).getLsbD 382 ≠ decide (xIm = 0 ∧ z2 = 0) then CompletesAs s t 0x10e []
    else if xIm = 0 ∧ z2 = 0 then
      if a = 1 then CompletesAs s t 0x18e []
      else CompletesAs s t 0x802 [.xRe, .xIm, .yRe, .yIm] ∧ ∀ r ∈ [RegName.xRe, .xIm, .yRe, .yIm], t.regs.get r = 0
    else if Config.hardware.q ≤ xIm then CompletesAs s t 0x216 []
    else if Config.hardware.q ≤ z2 then CompletesAs s t 0x296 []
    else
      (¬ HasRoot Config.hardware (curveRhs Config.hardware ⟨z2, xIm⟩) → CompletesAs s t 0x31e []) ∧
      (HasRoot Config.hardware (curveRhs Config.hardware ⟨z2, xIm⟩) →
        CompletesAs s t 0x2 [.xRe, .xIm, .yRe, .yIm] ∧
        fq2Of t.regs .xRe .xIm = ⟨z2, xIm⟩ ∧
        (∀ y : Fq2, IsRoot Config.hardware y (curveRhs Config.hardware ⟨z2, xIm⟩) →
          fq2Of t.regs .yRe .yIm =
            if aFlag Config.hardware (canon y (neg2 Config.hardware y)) ≠ a then
              neg2 Config.hardware (canon y (neg2 Config.hardware y))
            else canon y (neg2 Config.hardware y)) ∧
        onCurve Config.hardware (fq2Of t.regs .xRe .xIm) (fq2Of t.regs .yRe .yIm) = true)

/-- 44_decompressor.md R145: the point at infinity comes back as INF = 1 with X and Y zero, from COMPRESS_INF's result
and from no other pair. -/
def Obligations.InfinityRoundTrip : Prop :=
  (∀ s : State, ∃ t u : State, exec .compressInf s = .next t ∧ exec .decompress t = .next u ∧
    CompletesAs t u 0x802 [.xRe, .xIm, .yRe, .yIm] ∧ ∀ r ∈ [RegName.xRe, .xIm, .yRe, .yIm], u.regs.get r = 0) ∧
  (∀ s : State, natOf s.regs .z1 = 2 ^ 383 + 2 ^ 382 → natOf s.regs .z2 = 0 →
    ∃ t : State, exec .decompress s = .next t ∧ CompletesAs s t 0x802 [.xRe, .xIm, .yRe, .yIm] ∧
      ∀ r ∈ [RegName.xRe, .xIm, .yRe, .yIm], t.regs.get r = 0) ∧
  (∀ s t : State, exec .decompress s = .next t → statInf (t.regs.get .status) = true →
    natOf s.regs .z1 = 2 ^ 383 + 2 ^ 382 ∧ natOf s.regs .z2 = 0)

/-- 44_decompressor.md R142: NOT_ON_CURVE is unreachable, in every configuration that meets R8 to R10 and on the block
as built. -/
def Obligations.NotOnCurveIsUnreachable : Prop :=
  (∀ (c : Cfg) (z1 z2 : Word), c.Valid → decompressPoint c z1 z2 ≠ .error .notOnCurve) ∧
  (∀ s t : State, exec .decompress s = .next t → t.regs.get .status ≠ failStat .notOnCurve)

/-- 44_decompressor.md R144 in every configuration that meets R8 to R10: a curve point with x ≠ ZERO2 comes back from
COMPRESS and DECOMPRESS as it was, with STATUS = 0x2. -/
def Obligations.FiniteRoundTrip : Prop :=
  ∀ (c : Cfg) (s : State), c.Valid →
    (fq2Of s.regs .xRe .xIm).wf c = true → (fq2Of s.regs .yRe .yIm).wf c = true →
    onCurve c (fq2Of s.regs .xRe .xIm) (fq2Of s.regs .yRe .yIm) = true → fq2Of s.regs .xRe .xIm ≠ zero2 →
    CompletesAs (commandIn c .compress s) (commandIn c .decompress (commandIn c .compress s)) 0x2 [] ∧
    ∀ r ∈ [RegName.xRe, .xIm, .yRe, .yIm], (commandIn c .decompress (commandIn c .compress s)).regs.get r = s.regs.get r

/-- 44_decompressor.md R144 on the block as built. -/
def Obligations.HardwareRoundTrip : Prop :=
  ∀ s : State,
    (fq2Of s.regs .xRe .xIm).wf Config.hardware = true → (fq2Of s.regs .yRe .yIm).wf Config.hardware = true →
    onCurve Config.hardware (fq2Of s.regs .xRe .xIm) (fq2Of s.regs .yRe .yIm) = true → fq2Of s.regs .xRe .xIm ≠ zero2 →
    ∃ t u : State, exec .compress s = .next t ∧ exec .decompress t = .next u ∧ u.regs.get .status = 0x2 ∧
      ∀ r ∈ [RegName.xRe, .xIm, .yRe, .yIm], u.regs.get r = s.regs.get r

/-- 44_decompressor.md R146: an accepted encoding is the compression of its point, in every configuration that meets
R8 to R10 and has no curve point with y = ZERO2 (R147): COMPRESS after the DECOMPRESS of a finite point, or COMPRESS_INF
after that of the point at infinity, gives back Z1 and Z2, and so does `compressPoint` of the point; two accepted
encodings of one point are equal. -/
def Obligations.AcceptedEncodingsAreCanonical : Prop :=
  ∀ c : Cfg, c.Valid → (∀ x : Fq2, x.wf c = true → curveRhs c x ≠ zero2) →
    (∀ s : State, (commandIn c .decompress s).regs.get .status = 0x2 →
      (∀ r ∈ [RegName.z1, .z2], (commandIn c .compress (commandIn c .decompress s)).regs.get r = s.regs.get r) ∧
      compressPoint c (.affine (fq2Of (commandIn c .decompress s).regs .xRe .xIm)
        (fq2Of (commandIn c .decompress s).regs .yRe .yIm)) = (natOf s.regs .z1, natOf s.regs .z2)) ∧
    (∀ s : State, (commandIn c .decompress s).regs.get .status = 0x802 →
      (∀ r ∈ [RegName.z1, .z2], (commandIn c .compressInf (commandIn c .decompress s)).regs.get r = s.regs.get r) ∧
      compressPoint c .infinity = (natOf s.regs .z1, natOf s.regs .z2)) ∧
    (∀ (z1 z2 z1' z2' : Word) (p : Point), decompressPoint c z1 z2 = .ok p → decompressPoint c z1' z2' = .ok p →
      z1 = z1' ∧ z2 = z2')

/-- 44_decompressor.md R147 (a): a compressed point with x = ZERO2 is refused with B_FLAG_MISMATCH, in every
configuration of the shape R8 allows. -/
def Obligations.ZeroXIsRefused : Prop :=
  ∀ (c : Cfg) (s : State), c.wf = true →
    s.regs.get .xRe = 0 → s.regs.get .xIm = 0 → (fq2Of s.regs .yRe .yIm).wf c = true →
    CompletesAs (commandIn c .compress s) (commandIn c .decompress (commandIn c .compress s)) 0x10e []

/-- 44_decompressor.md R147 on CFG_BN254: B2 is not a square, and no x has x³ + B2 = ZERO2, so neither corner point
exists. -/
def Obligations.HardwareHasNoCornerPoints : Prop :=
  ¬ HasRoot Config.hardware Config.hardware.b2 ∧
    ∀ x : Fq2, x.wf Config.hardware = true → curveRhs Config.hardware x ≠ zero2

/-! ### Field arithmetic and the configuration -/

/-- 00_scope.md R16: the FQ operations as arithmetic modulo Q, the power by repeated squaring among them, with fneg(0)
= 0 and fpow(a, 0) = 1. -/
def Obligations.FieldOperations : Prop :=
  ∀ c : Cfg, c.wf = true → ∀ a b e : Nat, a < c.q → b < c.q →
    fadd c a b = (a + b) % c.q ∧ fsub c a b = (a + c.q - b) % c.q ∧ fneg c a = (c.q - a) % c.q ∧ fneg c 0 = 0 ∧
    fmul c a b = a * b % c.q ∧ fpow c a e = a ^ e % c.q ∧ fpow c a 0 = 1

/-- 00_scope.md R21: pow2 by repeated squaring satisfies the rule's recursion, with pow2(ZERO2, 0) = ONE2. -/
def Obligations.ExtensionPowers : Prop :=
  ∀ (c : Cfg) (u : Fq2) (e : Nat), c.wf = true → u.wf c = true →
    pow2 c u 0 = one2 ∧ pow2 c u (e + 1) = mul2 c (pow2 c u e) u ∧ pow2 c zero2 0 = one2

/-- 00_scope.md R22: a nonzero element has a nonzero norm and inv2 is its inverse, so div2 undoes a product. -/
def Obligations.ExtensionInverse : Prop :=
  ∀ (c : Cfg) (u v : Fq2), c.Valid → u.wf c = true → v.wf c = true → v ≠ zero2 →
    norm2 c v ≠ 0 ∧ mul2 c v (inv2 c v) = one2 ∧ mul2 c (div2 c u v) v = u

/-- 00_scope.md R8 and R9 of CFG_BN254: Q is an odd prime below 2^381, BETA = −1 is a quadratic non-residue modulo Q,
and B2 is an FQ2 element. -/
def Obligations.HardwareConfigurationIsValid : Prop :=
  Config.hardware.Valid ∧ Config.hardware.beta = Config.hardware.q - 1 ∧ Config.hardware.q % 4 = 3
end

