-- ==== Sys2Proof/Laws/State.lean ====
section
/-! SUPPORT. The small lemmas of the register file and of the named updates of a state: one per field per update. -/

namespace Sys2Proof.Machine

@[simp] theorem Regs.get_set_self (x : Regs) (r : RegName) (v : Word) : (x.set r v).get r = v := by
  cases r <;> rfl

theorem Regs.get_set (x : Regs) (r r' : RegName) (v : Word) :
    (x.set r v).get r' = if r' = r then v else x.get r' := by
  cases r <;> cases r' <;> rfl

@[simp] theorem Regs.get_set_of_ne (x : Regs) {r r' : RegName} (v : Word) (h : r' ≠ r) : (x.set r v).get r' = x.get r' := by
  rw [Regs.get_set, if_neg h]

/-- Two register files with equal contents are equal. -/
theorem Regs.ext_get {x y : Regs} (h : ∀ r : RegName, x.get r = y.get r) : x = y := by
  cases x
  cases y
  rw [Regs.mk.injEq]
  exact ⟨h .cmd, h .status, h .z1, h .z2, h .xRe, h .xIm, h .yRe, h .yIm, h .vRe, h .vIm, h .sRe, h .sIm⟩

theorem Regs.set_set (x : Regs) (r : RegName) (v w : Word) : (x.set r v).set r w = x.set r w := by
  cases r <;> rfl

@[simp] theorem Regs.get_reset (r : RegName) : Regs.reset.get r = 0 := by cases r <;> rfl

@[simp] theorem regAt_index (r : RegName) : regAt r.index = some r := by cases r <;> rfl

theorem regAt_eq_none_iff (i : PortIndex) : regAt i = none ↔ 12 ≤ i.toNat := by
  revert i
  decide

theorem regAt_eq_some_iff (i : PortIndex) (r : RegName) : regAt i = some r ↔ i = r.index := by
  revert i
  cases r <;> decide

@[simp] theorem finish_regs (f : StatArgs) (x : Regs) (s : State) : (finish f x s).regs = x.set .status (stat f) := rfl
@[simp] theorem finish_phase (f : StatArgs) (x : Regs) (s : State) : (finish f x s).phase = .idle := rfl
@[simp] theorem finish_rdData (f : StatArgs) (x : Regs) (s : State) : (finish f x s).rdData = s.rdData := rfl
@[simp] theorem finish_draws (f : StatArgs) (x : Regs) (s : State) : (finish f x s).draws = s.draws := rfl
@[simp] theorem finish_pending (f : StatArgs) (x : Regs) (s : State) : (finish f x s).pending = s.pending := rfl

@[simp] theorem raise_regs (d : Detail) (s : State) : (raise d s).regs = s.regs.set .status (failStat d) := rfl
@[simp] theorem raise_phase (d : Detail) (s : State) : (raise d s).phase = .idle := rfl
@[simp] theorem raise_rdData (d : Detail) (s : State) : (raise d s).rdData = s.rdData := rfl
@[simp] theorem raise_draws (d : Detail) (s : State) : (raise d s).draws = s.draws := rfl
@[simp] theorem raise_pending (d : Detail) (s : State) : (raise d s).pending = s.pending := rfl

@[simp] theorem accept_regs (cw : Word) (n : Nat) (s : State) :
    (accept cw n s).regs = (s.regs.set .cmd cw).set .status busyStat := rfl
@[simp] theorem accept_phase (cw : Word) (n : Nat) (s : State) : (accept cw n s).phase = .busy cw n := rfl
@[simp] theorem accept_rdData (cw : Word) (n : Nat) (s : State) : (accept cw n s).rdData = s.rdData := rfl
@[simp] theorem accept_draws (cw : Word) (n : Nat) (s : State) : (accept cw n s).draws = s.draws := rfl
@[simp] theorem accept_pending (cw : Word) (n : Nat) (s : State) : (accept cw n s).pending = s.pending := rfl

@[simp] theorem drawRdData_regs (s : State) : (drawRdData s).regs = s.regs := rfl
@[simp] theorem drawRdData_phase (s : State) : (drawRdData s).phase = s.phase := rfl
@[simp] theorem drawRdData_rdData (s : State) : (drawRdData s).rdData = Config.freeWord s.draws := rfl
@[simp] theorem drawRdData_draws (s : State) : (drawRdData s).draws = s.draws + 1 := rfl
@[simp] theorem drawRdData_pending (s : State) : (drawRdData s).pending = s.pending := rfl

@[simp] theorem resetBlock_regs (s : State) : (resetBlock s).regs = Regs.reset := rfl
@[simp] theorem resetBlock_phase (s : State) : (resetBlock s).phase = .idle := rfl
@[simp] theorem resetBlock_rdData (s : State) : (resetBlock s).rdData = Config.freeWord s.draws := rfl
@[simp] theorem resetBlock_draws (s : State) : (resetBlock s).draws = s.draws + 1 := rfl
@[simp] theorem resetBlock_pending (s : State) : (resetBlock s).pending = s.pending := rfl

end Sys2Proof.Machine
end

