-- ==== Sys2Proof/Laws/Ops.lean ====
section
/-! SUPPORT. What each shared operation can do, said once: driving rd_data, a port write, the operand checks, register
pairs, the completion of a word, and the forms of a clock cycle. -/

namespace Sys2Proof.Machine

@[simp] theorem driveRdData_regs (p : PortIn) (s : State) : (driveRdData p s).regs = s.regs := by
  unfold driveRdData
  split
  · split <;> rfl
  · rfl

@[simp] theorem driveRdData_phase (p : PortIn) (s : State) : (driveRdData p s).phase = s.phase := by
  unfold driveRdData
  split
  · split <;> rfl
  · rfl

@[simp] theorem driveRdData_pending (p : PortIn) (s : State) : (driveRdData p s).pending = s.pending := by
  unfold driveRdData
  split
  · split <;> rfl
  · rfl

/-- With a write strobe, or without a read strobe, rd_data shows any value. -/
theorem driveRdData_eq_draw {p : PortIn} (h : p.wrEn = true ∨ p.rdEn = false) (s : State) : driveRdData p s = drawRdData s := by
  unfold driveRdData
  rcases h with h | h <;> simp [h]

/-- A read alone shows what PortRead returns, and any value where that is unspecified. -/
theorem driveRdData_read {p : PortIn} (hr : p.rdEn = true) (hw : p.wrEn = false) (s : State) :
    driveRdData p s = match portRead s p.addr with
      | some v => { s with rdData := v }
      | none => drawRdData s := by
  cases h : portRead s p.addr <;> simp [driveRdData, hr, hw, h]

/-- What a write to index `i` does while Idle, by the register at the index. -/
theorem portWrite_cases (n : Nat) (i : PortIndex) (v : Word) (s : State) :
    (i = 0 ∧ portWrite n i v s = accept v n s) ∨
    (i = 1 ∧ portWrite n i v s = s) ∨
    (12 ≤ i.toNat ∧ portWrite n i v s = s) ∨
    (∃ r : RegName, r.isData = true ∧ i = r.index ∧ portWrite n i v s = { s with regs := s.regs.set r v }) := by
  unfold portWrite
  split
  · exact .inr (.inr (.inl ⟨(regAt_eq_none_iff i).mp ‹_›, rfl⟩))
  · exact .inl ⟨(regAt_eq_some_iff i .cmd).mp ‹_›, rfl⟩
  · exact .inr (.inl ⟨(regAt_eq_some_iff i .status).mp ‹_›, rfl⟩)
  · rename_i r hs hc h
    refine .inr (.inr (.inr ⟨r, ?_, (regAt_eq_some_iff i r).mp h, rfl⟩))
    cases r <;> simp_all [RegName.isData]

/-- The check list answers none exactly when every register of it is below Q. -/
theorem firstOutOfRange_eq_none_iff (c : Cfg) (x : Regs) (l : List (RegName × Detail)) :
    firstOutOfRange c x l = none ↔ ∀ rd ∈ l, natOf x rd.1 < c.q := by
  induction l with
  | nil => simp [firstOutOfRange]
  | cons rd rest ih =>
    obtain ⟨r, d⟩ := rd
    by_cases h : c.q ≤ natOf x r
    · simp only [firstOutOfRange, if_pos h, List.mem_cons, reduceCtorEq, false_iff]
      intro hall
      exact absurd (hall (r, d) (.inl rfl)) (Nat.not_lt.mpr h)
    · simp only [firstOutOfRange, if_neg h, List.mem_cons, ih]
      constructor
      · rintro hall rd (rfl | hm)
        · exact Nat.not_le.mp h
        · exact hall rd hm
      · exact fun hall rd hm => hall rd (.inr hm)

/-- A failing check is one of the list. -/
theorem firstOutOfRange_mem {c : Cfg} {x : Regs} {l : List (RegName × Detail)} {d : Detail}
    (h : firstOutOfRange c x l = some d) : ∃ r : RegName, (r, d) ∈ l ∧ c.q ≤ natOf x r := by
  induction l with
  | nil => simp [firstOutOfRange] at h
  | cons rd rest ih =>
    obtain ⟨r, d'⟩ := rd
    by_cases hq : c.q ≤ natOf x r
    · simp only [firstOutOfRange, if_pos hq, Option.some.injEq] at h
      exact ⟨r, by simp [h], hq⟩
    · simp only [firstOutOfRange, if_neg hq] at h
      obtain ⟨r', hm, hr⟩ := ih h
      exact ⟨r', List.mem_cons_of_mem _ hm, hr⟩

theorem get_setFq2 (x : Regs) (re im r : RegName) (u : Fq2) :
    (setFq2 x re im u).get r = if r = im then wordOf u.im else if r = re then wordOf u.re else x.get r := by
  simp only [setFq2, Regs.get_set]

theorem get_setCompressed (x : Regs) (z : Nat × Nat) (r : RegName) :
    (setCompressed x z).get r = if r = .z2 then wordOf z.2 else if r = .z1 then wordOf z.1 else x.get r := by
  simp only [setCompressed, Regs.get_set]

/-- A word completes as the command it names, or fails with the reason why it names none. -/
theorem complete_cases (e : Engine) (cw : Word) (s : State) :
    (∃ i : Instr, decode cw = .ok i ∧ complete e cw s = e.command i s) ∨
    (∃ w : IllegalWord, decode cw = .error w ∧ complete e cw s = .next (raise (illegalDetail w) s)) := by
  unfold complete
  split
  · exact .inl ⟨_, ‹_›, rfl⟩
  · exact .inr ⟨_, ‹_›, rfl⟩

theorem cycle_of_reset (e : Engine) {p : PortIn} (h : p.rst = true) (s : State) : cycle e p s = .next (resetBlock s) := by
  simp [cycle, h]

theorem cycle_of_idle (e : Engine) {p : PortIn} (hr : p.rst = false) {s : State} (hs : s.phase = .idle) :
    cycle e p s =
      .next (if p.wrEn then portWrite (e.latency p.wrData s.regs) p.addr p.wrData (driveRdData p s) else driveRdData p s) := by
  simp [cycle, hr, hs]

theorem cycle_of_last (e : Engine) {p : PortIn} (hr : p.rst = false) {s : State} {cw : Word} {n : Nat}
    (hs : s.phase = .busy cw n) (hn : n ≤ 1) : cycle e p s = complete e cw (driveRdData p s) := by
  simp [cycle, hr, hs, hn]

theorem cycle_of_busy (e : Engine) {p : PortIn} (hr : p.rst = false) {s : State} {cw : Word} {n : Nat}
    (hs : s.phase = .busy cw n) (hn : 1 < n) :
    cycle e p s = .next { driveRdData p s with phase := .busy cw (n - 1) } := by
  simp [cycle, hr, hs, Nat.not_le.mpr hn]

@[simp] theorem takeInput_regs (s : State) : (takeInput s).regs = s.regs := rfl
@[simp] theorem takeInput_phase (s : State) : (takeInput s).phase = s.phase := rfl
@[simp] theorem takeInput_rdData (s : State) : (takeInput s).rdData = s.rdData := rfl
@[simp] theorem takeInput_draws (s : State) : (takeInput s).draws = s.draws := rfl
@[simp] theorem takeInput_pending (s : State) : (takeInput s).pending = s.pending.tail := rfl

/-- `exec` is the configuration's command at the configuration the block is built with. -/
theorem exec_eq (i : Instr) (s : State) : exec i s = .next (commandIn Config.hardware i s) := by
  cases i <;> rfl

end Sys2Proof.Machine
end

