-- ==== Sys2Proof/Laws/Commands.lean ====
section
/-! SUPPORT. What a command can do, said once: it is a completion whose registers come from the registers alone. -/

namespace Sys2Proof.Machine

/-- A completion or a failure: the block is Idle, and only the registers are new. -/
theorem commandIn_shape (c : Cfg) (i : Instr) (s : State) :
    commandIn c i s = { s with regs := (commandIn c i s).regs, phase := .idle } := by
  cases i with
  | encodeFlags fc fb fa => rfl
  | decodeFlags => rfl
  | compressInf => rfl
  | compress =>
    simp only [commandIn, compressRule]
    split <;> rfl
  | fq2Sqrt =>
    simp only [commandIn, fq2SqrtRule]
    split
    · rfl
    · split <;> rfl
  | decompress =>
    simp only [commandIn, decompressRule]
    split <;> rfl

@[simp] theorem commandIn_phase (c : Cfg) (i : Instr) (s : State) : (commandIn c i s).phase = .idle := by
  rw [commandIn_shape]
@[simp] theorem commandIn_rdData (c : Cfg) (i : Instr) (s : State) : (commandIn c i s).rdData = s.rdData := by
  rw [commandIn_shape]
@[simp] theorem commandIn_draws (c : Cfg) (i : Instr) (s : State) : (commandIn c i s).draws = s.draws := by
  rw [commandIn_shape]
@[simp] theorem commandIn_pending (c : Cfg) (i : Instr) (s : State) : (commandIn c i s).pending = s.pending := by
  rw [commandIn_shape]

/-- A command's registers depend on the registers alone (10_state.md R41). -/
theorem commandIn_regs_congr (c : Cfg) (i : Instr) {s s' : State} (h : s.regs = s'.regs) :
    (commandIn c i s).regs = (commandIn c i s').regs := by
  cases i with
  | encodeFlags fc fb fa => simp [commandIn, encodeFlagsRule, h]
  | decodeFlags => simp [commandIn, decodeFlagsRule, h]
  | compressInf => simp [commandIn, compressInfRule, h]
  | compress =>
    simp only [commandIn, compressRule, h]
    split <;> simp [h]
  | fq2Sqrt =>
    simp only [commandIn, fq2SqrtRule, h]
    split
    · simp [h]
    · split <;> simp
  | decompress =>
    simp only [commandIn, decompressRule, h]
    split <;> simp [h]

/-- The outcomes of FQ2_SQRT: a RangeError, no root, or the root. -/
theorem fq2SqrtRule_cases (c : Cfg) (s : State) :
    (∃ d : Detail, firstOutOfRange c s.regs sqrtChecks = some d ∧ fq2SqrtRule c s = raise d s) ∨
    (firstOutOfRange c s.regs sqrtChecks = none ∧ sqrtFq2 c (fq2Of s.regs .vRe .vIm) = none ∧
      fq2SqrtRule c s = finish {} s.regs s) ∨
    (∃ root : Fq2, firstOutOfRange c s.regs sqrtChecks = none ∧ sqrtFq2 c (fq2Of s.regs .vRe .vIm) = some root ∧
      fq2SqrtRule c s = finish { found := true } (setFq2 s.regs .sRe .sIm root) s) := by
  unfold fq2SqrtRule
  split
  · exact .inl ⟨_, ‹_›, rfl⟩
  · split
    · exact .inr (.inr ⟨_, ‹_›, ‹_›, rfl⟩)
    · exact .inr (.inl ⟨‹_›, ‹_›, rfl⟩)

/-- The outcomes of COMPRESS: a RangeError, or the compressed form. -/
theorem compressRule_cases (c : Cfg) (s : State) :
    (∃ d : Detail, firstOutOfRange c s.regs compressChecks = some d ∧ compressRule c s = raise d s) ∨
    (firstOutOfRange c s.regs compressChecks = none ∧
      compressRule c s = finish {} (setCompressed s.regs
        (compressPoint c (.affine (fq2Of s.regs .xRe .xIm) (fq2Of s.regs .yRe .yIm)))) s) := by
  unfold compressRule
  split
  · exact .inl ⟨_, ‹_›, rfl⟩
  · exact .inr ⟨‹_›, rfl⟩

/-- The outcomes of DECOMPRESS: a failure, a finite point, or the point at infinity. -/
theorem decompressRule_cases (c : Cfg) (s : State) :
    (∃ d : Detail, decompressPoint c (s.regs.get .z1) (s.regs.get .z2) = .error d ∧ decompressRule c s = raise d s) ∨
    (∃ px py : Fq2, decompressPoint c (s.regs.get .z1) (s.regs.get .z2) = .ok (.affine px py) ∧
      decompressRule c s = finish {} (setFq2 (setFq2 s.regs .xRe .xIm px) .yRe .yIm py) s) ∨
    (decompressPoint c (s.regs.get .z1) (s.regs.get .z2) = .ok .infinity ∧
      decompressRule c s = finish { inf := true } (setFq2 (setFq2 s.regs .xRe .xIm zero2) .yRe .yIm zero2) s) := by
  unfold decompressRule
  split
  · exact .inl ⟨_, ‹_›, rfl⟩
  · exact .inr (.inl ⟨_, _, ‹_›, rfl⟩)
  · exact .inr (.inr ⟨‹_›, rfl⟩)

end Sys2Proof.Machine
end

