-- ==== Sys2Proof/Laws/Decode.lean ====
section
/-! SUPPORT. The fields of a command word as numbers. -/

namespace Sys2Proof

theorem opcField_toNat (cw : Word) : (opcField cw).toNat = cw.toNat % 16 := by
  simp [opcField]

theorem flagField_toNat (cw : Word) : (flagField cw).toNat = cw.toNat / 16 % 8 := by
  simp [flagField, Nat.shiftRight_eq_div_pow]

set_option exponentiation.threshold 400 in
theorem rsvdField_toNat (cw : Word) : (rsvdField cw).toNat = cw.toNat / 128 := by
  have h := cw.isLt
  rw [rsvdField, BitVec.extractLsb'_toNat, Nat.shiftRight_eq_div_pow]
  exact Nat.mod_eq_of_lt (Nat.div_lt_of_lt_mul (by rwa [← pow_add]))

theorem flagField_ne_zero_iff (cw : Word) : flagField cw ≠ 0 ↔ cw.toNat / 16 % 8 ≠ 0 := by
  rw [← flagField_toNat, ne_eq, ne_eq, ← BitVec.toNat_inj]
  rfl

set_option exponentiation.threshold 400 in
theorem rsvdField_ne_zero_iff (cw : Word) : rsvdField cw ≠ 0 ↔ cw.toNat / 128 ≠ 0 := by
  rw [← rsvdField_toNat, ne_eq, ne_eq, ← BitVec.toNat_inj]
  rfl

/-- A bit of a word, read from the word as a number. -/
theorem getLsbD_eq_decide (w : Word) (k : Nat) : w.getLsbD k = decide (w.toNat / 2 ^ k % 2 = 1) := by
  simp only [BitVec.getLsbD, Nat.testBit, Nat.shiftRight_eq_div_pow, Nat.one_and_eq_mod_two]
  rcases Nat.mod_two_eq_zero_or_one (w.toNat / 2 ^ k) with h | h <;> simp [h]

end Sys2Proof
end

