-- ==== Sys2Proof/Laws/Field.lean ====
section
/-! SUPPORT. The field operations: repeated squaring is a power, results are reduced, and every operation read in ZMod
Q. -/

namespace Sys2Proof.Machine

/-- Repeated squaring, seen through a map `f` into a monoid that turns `mul` into the product there. -/
theorem powLoop_map {α M : Type} [Monoid M] (mul : α → α → α) (f : α → M) (hf : ∀ a b, f (mul a b) = f a * f b) (fuel : Nat) :
    ∀ (acc b : α) (e : Nat), e < 2 ^ fuel → f (powLoop mul fuel acc b e) = f acc * f b ^ e := by
  induction fuel with
  | zero =>
    intro acc b e he
    obtain rfl : e = 0 := by simpa using he
    simp [powLoop]
  | succ fuel ih =>
    intro acc b e he
    have hlt : e / 2 < 2 ^ fuel := by rw [pow_succ] at he; omega
    have hsq : ∀ k : Nat, (f b * f b) ^ k = f b ^ (2 * k) := fun k => by rw [← pow_two, ← pow_mul]
    unfold powLoop
    split
    · simp_all
    · split
      · rw [ih _ _ _ hlt, hf, hf, hsq, mul_assoc, ← pow_succ']
        congr 2
        omega
      · rw [ih _ _ _ hlt, hf, hsq]
        congr 2
        omega

/-- `powBy` is the power, through such a map that also takes `one` to 1. -/
theorem powBy_map {α M : Type} [Monoid M] (mul : α → α → α) (one b : α) (f : α → M) (hf : ∀ a b, f (mul a b) = f a * f b)
    (h1 : f one = 1) (e : Nat) : f (powBy mul one b e) = f b ^ e := by
  rw [powBy, powLoop_map mul f hf _ _ _ _ Nat.lt_log2_self, h1, one_mul]

/-- A property of the unit and of every product holds of a power. -/
theorem powLoop_ind {α : Type} (mul : α → α → α) (P : α → Prop) (hmul : ∀ a b, P (mul a b)) (fuel : Nat) :
    ∀ (acc b : α) (e : Nat), P acc → P (powLoop mul fuel acc b e) := by
  induction fuel with
  | zero => exact fun acc b e h => h
  | succ fuel ih =>
    intro acc b e h
    unfold powLoop
    split
    · exact h
    · split
      · exact ih _ _ _ (hmul _ _)
      · exact ih _ _ _ h

variable {c : Cfg}

theorem fadd_lt (hq : 0 < c.q) (a b : Nat) : fadd c a b < c.q := Nat.mod_lt _ hq
theorem fsub_lt (hq : 0 < c.q) (a b : Nat) : fsub c a b < c.q := Nat.mod_lt _ hq
theorem fneg_lt (hq : 0 < c.q) (a : Nat) : fneg c a < c.q := Nat.mod_lt _ hq
theorem fmul_lt (hq : 0 < c.q) (a b : Nat) : fmul c a b < c.q := Nat.mod_lt _ hq

theorem fpow_lt (hq : 1 < c.q) (a e : Nat) : fpow c a e < c.q :=
  powLoop_ind _ (· < c.q) (fun a b => fmul_lt (by omega) a b) _ _ _ _ hq

@[simp] theorem cast_fadd (a b : Nat) : (fadd c a b : ZMod c.q) = a + b := by simp [fadd]
@[simp] theorem cast_fmul (a b : Nat) : (fmul c a b : ZMod c.q) = a * b := by simp [fmul]

theorem cast_fneg {a : Nat} (h : a ≤ c.q) : (fneg c a : ZMod c.q) = -a := by simp [fneg, Nat.cast_sub h]

theorem cast_fsub {b : Nat} (a : Nat) (h : b ≤ c.q) : (fsub c a b : ZMod c.q) = a - b := by
  simp [fsub, Nat.cast_sub (show b ≤ a + c.q by omega)]

@[simp] theorem cast_fpow (a e : Nat) : (fpow c a e : ZMod c.q) = (a : ZMod c.q) ^ e :=
  powBy_map (fmul c) 1 a (fun n => (n : ZMod c.q)) (fun a b => cast_fmul a b) Nat.cast_one e

/-- Two reduced naturals are equal when they are equal modulo Q. -/
theorem eq_of_cast {a b : Nat} (ha : a < c.q) (hb : b < c.q) (h : (a : ZMod c.q) = b) : a = b := by
  have := (ZMod.natCast_eq_natCast_iff a b c.q).mp h
  rwa [Nat.ModEq, Nat.mod_eq_of_lt ha, Nat.mod_eq_of_lt hb] at this

theorem Fq2.wf_iff (u : Fq2) : u.wf c = true ↔ u.re < c.q ∧ u.im < c.q := by simp [Fq2.wf]

theorem Cfg.wf_iff : c.wf = true ↔
    c.q % 2 = 1 ∧ 2 < c.q ∧ c.q < 2 ^ 381 ∧ 0 < c.beta ∧ c.beta < c.q ∧ c.b2.wf c = true := by
  simp [Cfg.wf, and_assoc, -Nat.reducePow]

theorem mul2_wf (hq : 0 < c.q) (u v : Fq2) : (mul2 c u v).wf c = true :=
  (Fq2.wf_iff _).mpr ⟨fadd_lt hq _ _, fadd_lt hq _ _⟩

theorem add2_wf (hq : 0 < c.q) (u v : Fq2) : (add2 c u v).wf c = true :=
  (Fq2.wf_iff _).mpr ⟨fadd_lt hq _ _, fadd_lt hq _ _⟩

theorem neg2_wf (hq : 0 < c.q) (u : Fq2) : (neg2 c u).wf c = true :=
  (Fq2.wf_iff _).mpr ⟨fneg_lt hq _, fneg_lt hq _⟩

theorem cast_mul2_re (u v : Fq2) :
    ((mul2 c u v).re : ZMod c.q) = u.re * v.re + c.beta * (u.im * v.im) := by simp [mul2]

theorem cast_mul2_im (u v : Fq2) : ((mul2 c u v).im : ZMod c.q) = u.re * v.im + u.im * v.re := by simp [mul2]

theorem cast_norm2 (hq : 0 < c.q) (u : Fq2) :
    (norm2 c u : ZMod c.q) = (u.re : ZMod c.q) * u.re - c.beta * (u.im * u.im) := by
  rw [norm2, cast_fsub _ (Nat.le_of_lt (fmul_lt hq _ _))]
  simp

/-- Reduced elements are equal when their coefficients are equal modulo Q (00_scope.md R23). -/
theorem fq2_eq_of_cast {u v : Fq2} (hu : u.wf c = true) (hv : v.wf c = true) (hre : (u.re : ZMod c.q) = v.re)
    (him : (u.im : ZMod c.q) = v.im) : u = v := by
  obtain ⟨h1, h2⟩ := (Fq2.wf_iff u).mp hu
  obtain ⟨h3, h4⟩ := (Fq2.wf_iff v).mp hv
  cases u
  cases v
  rw [Fq2.mk.injEq]
  exact ⟨eq_of_cast h1 h3 hre, eq_of_cast h2 h4 him⟩

end Sys2Proof.Machine
end

