-- ==== Sys2Proof/Laws/PerInstr.lean ====
section
/-! SUPPORT. Facts about every command as syntax, one lemma per constructor of Instr. -/

namespace Sys2Proof

/-- The word of a command lies in its row of spec/opcode_table.json and in no other row (30_encoding.md R75). -/
def Laws.TableRow.Statement (i : Instr) : Prop :=
  i.wf = true ∧ encode i &&& tableMask i = tableMatch i ∧ (encode i).toNat % 16 = (tableMatch i).toNat

theorem Laws.TableRow.encodeFlags (c b a : Bool) : Laws.TableRow.Statement (.encodeFlags c b a) := by
  cases c <;> cases b <;> cases a <;> exact ⟨rfl, by decide +kernel, by decide +kernel⟩

theorem Laws.TableRow.decodeFlags : Laws.TableRow.Statement .decodeFlags :=
  ⟨rfl, by decide +kernel, by decide +kernel⟩

theorem Laws.TableRow.fq2Sqrt : Laws.TableRow.Statement .fq2Sqrt :=
  ⟨rfl, by decide +kernel, by decide +kernel⟩

theorem Laws.TableRow.compress : Laws.TableRow.Statement .compress :=
  ⟨rfl, by decide +kernel, by decide +kernel⟩

theorem Laws.TableRow.compressInf : Laws.TableRow.Statement .compressInf :=
  ⟨rfl, by decide +kernel, by decide +kernel⟩

theorem Laws.TableRow.decompress : Laws.TableRow.Statement .decompress :=
  ⟨rfl, by decide +kernel, by decide +kernel⟩

end Sys2Proof
end

