-- ==== Sys2Proof/Laws/SquareRoot.lean ====
section
/-! SUPPORT. The square root in FQ and what the parts of the root in FQ2 compute, read in ZMod Q. -/

namespace Sys2Proof.Machine

/-- `twoPart` splits off the largest power of two. -/
theorem twoPart_spec (fuel n : Nat) (h0 : 0 < n) (h : n < 2 ^ fuel) :
    n = 2 ^ (twoPart fuel n).1 * (twoPart fuel n).2 ∧ (twoPart fuel n).2 % 2 = 1 := by
  induction fuel generalizing n with
  | zero => omega
  | succ k ih =>
    unfold twoPart
    split
    · rename_i he
      obtain ⟨h1, h2⟩ := ih (n / 2) (by omega) (by omega)
      refine ⟨?_, h2⟩
      simp only [pow_succ]
      rw [mul_right_comm, ← h1]
      omega
    · exact ⟨by simp, by omega⟩

variable {c : Cfg}

theorem valid_fact (hc : c.Valid) : Fact c.q.Prime := ⟨hc.prime⟩

/-- BETA is no square in ZMod Q (00_scope.md R8). -/
theorem beta_not_square (hc : c.Valid) : ¬ IsSquare (c.beta : ZMod c.q) := by
  have := valid_fact hc
  rintro ⟨r, hr⟩
  refine hc.nonresidue r.val (ZMod.val_lt r) ?_
  refine eq_of_cast (Nat.mod_lt _ hc.prime.pos) (Cfg.wf_iff.mp hc.wf).2.2.2.2.1 ?_
  simp [hr]

/-- Euler's test in ZMod Q: a nonzero square. -/
theorem isResidue_iff (hc : c.Valid) (a : Nat) : isResidue c a = true ↔ (a : ZMod c.q) ≠ 0 ∧ IsSquare (a : ZMod c.q) := by
  have := valid_fact hc
  obtain ⟨hodd, htwo, -⟩ := Cfg.wf_iff.mp hc.wf
  have he : (c.q - 1) / 2 = c.q / 2 := by omega
  have h1 : fpow c a ((c.q - 1) / 2) = 1 ↔ (a : ZMod c.q) ^ (c.q / 2) = 1 := by
    rw [← he, ← cast_fpow]
    refine ⟨fun h => by rw [h, Nat.cast_one], fun h => eq_of_cast (fpow_lt (by omega) _ _) (by omega) (by rw [h, Nat.cast_one])⟩
  rw [isResidue, decide_eq_true_iff, h1]
  constructor
  · intro h
    have h0 : (a : ZMod c.q) ≠ 0 := by
      intro hz
      rw [hz, zero_pow (by omega)] at h
      exact zero_ne_one h
    exact ⟨h0, (ZMod.euler_criterion c.q h0).mpr h⟩
  · rintro ⟨h0, hs⟩
    exact (ZMod.euler_criterion c.q h0).mp hs

/-- What the loop keeps: r² = x·t, with t of order dividing 2^k and z a 2^k-th root of −1; so it ends with a root of x. -/
theorem rootLoop_spec (hc : c.Valid) (x : ZMod c.q) (k r t z : Nat) (hr : (r : ZMod c.q) ^ 2 = x * t)
    (ht : (t : ZMod c.q) ^ 2 ^ k = 1) (hz : (z : ZMod c.q) ^ 2 ^ k = -1) : (rootLoop c k r t z : ZMod c.q) ^ 2 = x := by
  have := valid_fact hc
  have htwo : 1 < c.q := hc.prime.one_lt
  induction k generalizing r t z with
  | zero => simpa [rootLoop, show (t : ZMod c.q) = 1 by simpa using ht] using hr
  | succ k ih =>
    have hzz : ((fmul c z z : Nat) : ZMod c.q) ^ 2 ^ k = -1 := by rw [cast_fmul, ← pow_two, ← pow_mul, ← pow_succ', hz]
    unfold rootLoop
    dsimp only
    split
    · rename_i h
      have : (t : ZMod c.q) ^ 2 ^ k = 1 := by rw [← cast_fpow, h, Nat.cast_one]
      exact ih r t _ hr this hzz
    · rename_i h
      have h2 : (t : ZMod c.q) ^ 2 ^ k = -1 := by
        refine (mul_self_eq_one_iff.mp (by rw [← pow_two, ← pow_mul, ← pow_succ, ht])).resolve_left fun h' => h ?_
        exact eq_of_cast (fpow_lt htwo _ _) htwo (by rw [cast_fpow, h', Nat.cast_one])
      refine ih _ _ _ ?_ ?_ hzz
      · rw [cast_fmul, cast_fmul, cast_fmul, mul_pow, hr]
        ring
      · rw [cast_fmul, mul_pow, h2, hzz]
        ring

/-- The square root in FQ is a root of every nonzero square. -/
theorem sqrtFq_spec (hc : c.Valid) {x : Nat} (h : isResidue c x = true) : (sqrtFq c x : ZMod c.q) ^ 2 = x := by
  have := valid_fact hc
  obtain ⟨hodd, htwo, hlt, -⟩ := Cfg.wf_iff.mp hc.wf
  obtain ⟨hx0, hxs⟩ := (isResidue_iff hc x).mp h
  obtain ⟨hn, hm⟩ := twoPart_spec 381 (c.q - 1) (by omega) (by omega)
  unfold sqrtFq
  dsimp only
  generalize hs : (twoPart 381 (c.q - 1)).1 = s at *
  generalize hmm : (twoPart 381 (c.q - 1)).2 = m at *
  have hspos : 1 ≤ s := by
    rcases Nat.eq_zero_or_pos s with h0 | h0
    · subst h0; omega
    · exact h0
  have hhalf : m * 2 ^ (s - 1) = c.q / 2 := by
    obtain ⟨k, rfl⟩ : ∃ k, s = k + 1 := ⟨s - 1, by omega⟩
    rw [pow_succ, mul_right_comm] at hn
    have : m * 2 ^ k = 2 ^ k * m := mul_comm _ _
    simp only [Nat.add_sub_cancel]
    omega
  have hb0 : (c.beta : ZMod c.q) ≠ 0 := fun h0 => beta_not_square hc (h0 ▸ IsSquare.zero)
  refine rootLoop_spec hc x _ _ _ _ ?_ ?_ ?_
  · rw [cast_fpow, cast_fpow, ← pow_mul, ← pow_succ', show (m + 1) / 2 * 2 = m + 1 by omega]
  · rw [cast_fpow, ← pow_mul, hhalf]
    exact (ZMod.euler_criterion c.q hx0).mp hxs
  · rw [cast_fpow, ← pow_mul, hhalf]
    rcases ZMod.pow_div_two_eq_neg_one_or_one c.q hb0 with h1 | h1
    · exact absurd ((ZMod.euler_criterion c.q hb0).mpr h1) (beta_not_square hc)
    · exact h1

theorem cast_finv (hc : c.Valid) {a : Nat} : (finv c a : ZMod c.q) = (a : ZMod c.q)⁻¹ := by
  have := valid_fact hc
  obtain ⟨hodd, htwo, -⟩ := Cfg.wf_iff.mp hc.wf
  rw [finv, cast_fpow]
  by_cases h0 : (a : ZMod c.q) = 0
  · rw [h0, zero_pow (by omega), inv_zero]
  · refine eq_inv_of_mul_eq_one_left ?_
    rw [← pow_succ, show c.q - 2 + 1 = c.q - 1 by omega]
    exact ZMod.pow_card_sub_one_eq_one h0

/-- A nonzero element has a nonzero norm (00_scope.md R22). -/
theorem cast_norm2_ne_zero (hc : c.Valid) {v : Fq2} (hv : v.wf c = true) (h0 : v ≠ zero2) : (norm2 c v : ZMod c.q) ≠ 0 := by
  have := valid_fact hc
  obtain ⟨hr, hi⟩ := (Fq2.wf_iff v).mp hv
  rw [cast_norm2 hc.prime.pos]
  intro h
  by_cases hz : (v.im : ZMod c.q) = 0
  · have him : v.im = 0 := eq_of_cast hi hc.prime.pos (by simpa using hz)
    have hre : v.re = 0 := eq_of_cast hr hc.prime.pos (by simpa [hz] using h)
    exact h0 (by cases v; simp_all [zero2])
  · refine beta_not_square hc ⟨v.re / v.im, ?_⟩
    field_simp
    linear_combination -h

/-- The quotient of two non-squares is a square. -/
theorem isSquare_mul_inv_of_not (hc : c.Valid) {a b : ZMod c.q} (ha : ¬ IsSquare a) (hb : ¬ IsSquare b) : IsSquare (a * b⁻¹) := by
  have := valid_fact hc
  have ha0 : a ≠ 0 := fun h => ha (h ▸ IsSquare.zero)
  have hb0 : b ≠ 0 := fun h => hb (h ▸ IsSquare.zero)
  have h1 := (ZMod.pow_div_two_eq_neg_one_or_one c.q ha0).resolve_left fun h => ha ((ZMod.euler_criterion c.q ha0).mpr h)
  have h2 := (ZMod.pow_div_two_eq_neg_one_or_one c.q hb0).resolve_left fun h => hb ((ZMod.euler_criterion c.q hb0).mpr h)
  refine (ZMod.euler_criterion c.q (mul_ne_zero ha0 (inv_ne_zero hb0))).mpr ?_
  rw [mul_pow, inv_pow, h1, h2, mul_inv_cancel₀ (neg_ne_zero.mpr one_ne_zero)]

theorem rootLoop_lt (hq : 1 < c.q) (k r t z : Nat) (hr : r < c.q) : rootLoop c k r t z < c.q := by
  induction k generalizing r t z with
  | zero => exact hr
  | succ k ih =>
    unfold rootLoop
    dsimp only
    split
    · exact ih _ _ _ hr
    · exact ih _ _ _ (fmul_lt (by omega) _ _)

theorem sqrtFq_lt (hq : 1 < c.q) (x : Nat) : sqrtFq c x < c.q := rootLoop_lt hq _ _ _ _ (fpow_lt hq _ _)

theorem someRoot_wf (hq : 1 < c.q) (v : Fq2) : (someRoot c v).wf c = true := by
  unfold someRoot
  rw [Fq2.wf_iff]
  split
  · split
    · exact ⟨sqrtFq_lt hq _, Nat.lt_of_succ_lt hq⟩
    · exact ⟨Nat.lt_of_succ_lt hq, sqrtFq_lt hq _⟩
  · exact ⟨sqrtFq_lt hq _, fmul_lt (by omega) _ _⟩

/-- What `someRoot` finds: a root, whenever the norm is a nonzero square (42_fq2_sqrt.md R110). -/
theorem someRoot_spec (hc : c.Valid) {v : Fq2} (hv : v.wf c = true) (h0 : v ≠ zero2) (hn : isResidue c (norm2 c v) = true) :
    sqr2 c (someRoot c v) = v := by
  have := valid_fact hc
  obtain ⟨hodd, htwo, -⟩ := Cfg.wf_iff.mp hc.wf
  obtain ⟨hr, hi⟩ := (Fq2.wf_iff v).mp hv
  have hb := beta_not_square hc
  have hb0 : (c.beta : ZMod c.q) ≠ 0 := fun h => hb (h ▸ IsSquare.zero)
  have h2 : (2 : ZMod c.q) ≠ 0 := by
    intro h
    have : 2 = 0 := eq_of_cast (c := c) htwo (by omega) (by simpa using h)
    omega
  have key : ((sqr2 c (someRoot c v)).re : ZMod c.q) = v.re ∧ ((sqr2 c (someRoot c v)).im : ZMod c.q) = v.im := by
    rw [sqr2, cast_mul2_re, cast_mul2_im]
    unfold someRoot
    split
    · rename_i him
      have hre : (v.re : ZMod c.q) ≠ 0 := fun h => h0 <| by
        have : v.re = 0 := eq_of_cast hr hc.prime.pos (by simpa using h)
        cases v
        simp_all [zero2]
      split
      · rename_i hres
        have hs := sqrtFq_spec hc hres
        simp only [Nat.cast_zero, him]
        exact ⟨by linear_combination hs, by ring⟩
      · rename_i hres
        have hres' : ¬ IsSquare (v.re : ZMod c.q) := fun h => hres ((isResidue_iff hc _).mpr ⟨hre, h⟩)
        have hs := sqrtFq_spec hc (x := fmul c v.re (finv c c.beta)) <| (isResidue_iff hc _).mpr <| by
          rw [cast_fmul, cast_finv hc]
          exact ⟨mul_ne_zero hre (inv_ne_zero hb0), isSquare_mul_inv_of_not hc hres' hb⟩
        rw [cast_fmul, cast_finv hc] at hs
        simp only [Nat.cast_zero, him]
        refine ⟨?_, by ring⟩
        field_simp at hs
        linear_combination hs
    · rename_i him
      have him0 : (v.im : ZMod c.q) ≠ 0 := fun h => him (eq_of_cast hi hc.prime.pos (by simpa using h))
      have ht := sqrtFq_spec hc hn
      rw [cast_norm2 (by omega)] at ht
      dsimp only
      have htlt := sqrtFq_lt (c := c) (by omega) (norm2 c v)
      generalize sqrtFq c (norm2 c v) = t at *
      have hd : ((fmul c (fadd c v.re t) (finv c 2) : Nat) : ZMod c.q) = (v.re + t) * 2⁻¹ := by
        rw [cast_fmul, cast_fadd, cast_finv hc, Nat.cast_ofNat]
      have hd' : ((fmul c (fsub c v.re t) (finv c 2) : Nat) : ZMod c.q) = (v.re - t) * 2⁻¹ := by
        rw [cast_fmul, cast_fsub _ htlt.le, cast_finv hc, Nat.cast_ofNat]
      generalize fmul c (fadd c v.re t) (finv c 2) = d at *
      generalize fmul c (fsub c v.re t) (finv c 2) = d' at *
      have hsum : (d : ZMod c.q) + d' = v.re := by rw [hd, hd']; field_simp; ring
      have hprod : (d : ZMod c.q) * d' = c.beta * (v.im * 2⁻¹) ^ 2 := by
        rw [hd, hd']; field_simp; linear_combination -ht
      have hnp : ¬ IsSquare ((d : ZMod c.q) * d') := by
        rw [hprod]
        rintro ⟨w, hw⟩
        refine hb ⟨w * ((v.im : ZMod c.q) * 2⁻¹)⁻¹, ?_⟩
        field_simp at hw ⊢
        linear_combination hw
      have hp0 : (d : ZMod c.q) * d' ≠ 0 := fun h => hnp (h ▸ IsSquare.zero)
      obtain ⟨e, e', he, hres, hs, hp⟩ : ∃ e e' : Nat, (if isResidue c d then d else d') = e ∧ isResidue c e = true ∧
          (e : ZMod c.q) + e' = v.re ∧ (e : ZMod c.q) * e' = c.beta * (v.im * 2⁻¹) ^ 2 := by
        by_cases hdr : isResidue c d = true
        · exact ⟨d, d', if_pos hdr, hdr, hsum, hprod⟩
        · refine ⟨d', d, if_neg hdr, (isResidue_iff hc _).mpr ⟨right_ne_zero_of_mul hp0, ?_⟩, by rw [add_comm, hsum],
            by rw [mul_comm, hprod]⟩
          have hd0 := left_ne_zero_of_mul hp0
          have := isSquare_mul_inv_of_not hc hnp fun h => hdr ((isResidue_iff hc _).mpr ⟨hd0, h⟩)
          rwa [mul_comm (d : ZMod c.q), mul_inv_cancel_right₀ hd0] at this
      rw [he]
      have hx := sqrtFq_spec hc hres
      have hx0 : (sqrtFq c e : ZMod c.q) ≠ 0 := fun h => ((isResidue_iff hc e).mp hres).1 (by rw [← hx, h]; ring)
      generalize sqrtFq c e = x at *
      rw [cast_fmul, cast_finv hc, cast_fmul, Nat.cast_ofNat]
      rw [← hs]
      constructor
      · field_simp at hp ⊢
        linear_combination (4 * (x : ZMod c.q) ^ 2 - 4 * e') * hx - hp
      · field_simp
        ring
  exact fq2_eq_of_cast (mul2_wf (by omega) _ _) hv key.1 key.2

end Sys2Proof.Machine
end

