-- ==== Sys2Proof/Laws/Step.lean ====
section
/-! SUPPORT. What one step can do, said once, and the completion that a Busy block makes. -/

namespace Sys2Proof.Machine

/-- A step is one of four things: a reset, an Idle cycle, the last cycle of a command, or an earlier cycle of one
(70_reset_and_hazards.md R191). -/
theorem step_cases (s : State) :
    ((nextInput s).rst = true ∧ step s = .next (resetBlock (takeInput s))) ∨
    ((nextInput s).rst = false ∧ s.phase = .idle ∧
      step s = .next
        (if (nextInput s).wrEn then
          portWrite (Config.latency (nextInput s).wrData s.regs.toList) (nextInput s).addr (nextInput s).wrData
            (driveRdData (nextInput s) (takeInput s))
        else driveRdData (nextInput s) (takeInput s))) ∨
    (∃ (cw : Word) (n : Nat), (nextInput s).rst = false ∧ s.phase = .busy cw n ∧ n ≤ 1 ∧
      step s = complete hardwareEngine cw (driveRdData (nextInput s) (takeInput s))) ∨
    (∃ (cw : Word) (n : Nat), (nextInput s).rst = false ∧ s.phase = .busy cw n ∧ 1 < n ∧
      step s = .next { driveRdData (nextInput s) (takeInput s) with phase := .busy cw (n - 1) }) := by
  unfold step
  by_cases hr : (nextInput s).rst = true
  · exact .inl ⟨hr, cycle_of_reset _ hr _⟩
  · simp only [Bool.not_eq_true] at hr
    cases hp : s.phase with
    | idle => exact .inr (.inl ⟨hr, rfl, cycle_of_idle _ hr hp⟩)
    | busy cw n =>
      by_cases hn : n ≤ 1
      · exact .inr (.inr (.inl ⟨cw, n, hr, rfl, hn, cycle_of_last _ hr hp hn⟩))
      · exact .inr (.inr (.inr ⟨cw, n, hr, rfl, by omega, cycle_of_busy _ hr hp (by omega)⟩))

/-- A completion is the command the word names at the block's configuration, or a failure. -/
theorem complete_hardware_cases (cw : Word) (s : State) :
    (∃ i : Instr, decode cw = .ok i ∧ complete hardwareEngine cw s = .next (commandIn Config.hardware i s)) ∨
    (∃ w : IllegalWord, decode cw = .error w ∧ complete hardwareEngine cw s = .next (raise (illegalDetail w) s)) := by
  rcases complete_cases hardwareEngine cw s with ⟨i, hd, h⟩ | h
  · exact .inl ⟨i, hd, h.trans (exec_eq i s)⟩
  · exact .inr h

end Sys2Proof.Machine
end

