-- ==== Sys2Proof/Machine/HostBytes.lean ====
section
/-! DEFINITION. The byte serialization that 20_memory.md R57 recommends to hosts. The block produces no bytes, and
nothing in the machine uses this file. -/

namespace Sys2Proof.Machine

/-- A 384-bit integer as 48 bytes, most significant byte first (20_memory.md R57). -/
def wordBytes (w : Word) : List Byte := (List.range 48).map fun i => w.extractLsb' (8 * (47 - i)) 8

/-- A compressed point as 96 bytes: z1, then z2 (20_memory.md R57). -/
def pointBytes (z1 z2 : Word) : List Byte := wordBytes z1 ++ wordBytes z2

/-- The 384-bit integer of 48 bytes, most significant byte first. -/
def bytesWord (bs : List Byte) : Word := BitVec.ofNat 384 (bs.foldl (fun n b => 256 * n + b.toNat) 0)

end Sys2Proof.Machine
end

