-- ==== Sys2Proof/Tests/Slice0.lean ====
section
/-! SUPPORT. The tests: well-formedness, decoding, one step of each command, the configuration, and for every
statement with hypotheses a witness that meets them. Expected values are those of 95_test_vectors.md and of the rules
named. -/

namespace Sys2Proof.Tests

open Sys2Proof Sys2Proof.Machine

-- One theorem at a time: the kernel evaluations need no thread each.
set_option Elab.async false
set_option exponentiation.threshold 400

/-! ### Helpers -/

/-- The block after reset with some registers written and the host's coming cycles planned. -/
def idleState (x : List (RegName × Nat)) (ins : List PortIn := []) : State :=
  { State.reset with regs := x.foldl (fun r p => r.set p.1 (wordOf p.2)) Regs.reset, pending := ins }

/-- The block while the word `cw` runs with `n` cycles left. -/
def busyState (cw : Word) (n : Nat) (x : List (RegName × Nat)) (ins : List PortIn := []) : State :=
  { accept cw n (idleState x) with pending := ins }

/-- Whether a step went on to a state in which these registers hold these values. -/
def reaches (o : Host.Outcome State Fault Refusal) (x : List (RegName × Nat)) : Bool :=
  match o with
  | .next t => x.all fun p => decide (t.regs.get p.1 = wordOf p.2)
  | .fault _ => false
  | .refused _ => false

/-- Whether the very next step, with the word `w` placed, leaves these registers at these values. -/
def runs (w : Nat) (s : State) (x : List (RegName × Nat)) : Bool := reaches (step (s.withFetchWord 384 w)) x

/-- A port cycle with reset. -/
def resetCycle : PortIn := { PortIn.quiet with rst := true }

/-- A port cycle with both strobes set (20_memory.md R51). -/
def bothStrobes : PortIn := { writeCycle .z1 9 with rdEn := true }

/-- The prime of CFG_BN254. -/
abbrev q : Nat := Config.bn254.q

/-- The fixture of 95_test_vectors.md section 2.3: the point's coordinates. -/
abbrev fixX : Fq2 := ⟨20456271874651344948253341295392711905477135017044966153115686896847760857935,
  3750429983862860823742319760054991864945596549379822962956770646884312979236⟩
abbrev fixY : Fq2 := ⟨703569469678413069677292343660238496680944522722992077714950198346770215535,
  8744331013967169952726744659258818632296620395222738052973422057164413318811⟩
/-- Its Z1, as 43_compressor.md R132 prints it. -/
abbrev fixZ1 : Nat := 0x80000000000000000000000000000000084aab0ba37fa5ce4842e898f56a539907c1b96aded734ea2edaa997776c9724

/-- The four coordinate registers of a point. -/
def point (x y : Fq2) : List (RegName × Nat) := [(.xRe, x.re), (.xIm, x.im), (.yRe, y.re), (.yIm, y.im)]

/-! ### Well-formedness -/

theorem test_wf_configurations : Config.bn254.wf = true ∧ Config.bls12_381.wf = true ∧ Config.toy11.wf = true ∧ Config.toy7.wf = true := by
  decide +kernel

theorem test_wf_refuses_even_q : Cfg.wf ⟨10, 9, ⟨1, 3⟩⟩ = false := by decide

theorem test_wf_refuses_small_q : Cfg.wf ⟨1, 0, ⟨0, 0⟩⟩ = false := by decide

theorem test_wf_refuses_wide_q : Cfg.wf ⟨2 ^ 381 + 1, 3, ⟨1, 3⟩⟩ = false := by decide +kernel

theorem test_wf_refuses_zero_beta : Cfg.wf ⟨11, 0, ⟨1, 3⟩⟩ = false := by decide

theorem test_wf_refuses_unreduced_beta : Cfg.wf ⟨11, 11, ⟨1, 3⟩⟩ = false := by decide

theorem test_wf_refuses_unreduced_b2 : Cfg.wf ⟨11, 10, ⟨1, 11⟩⟩ = false ∧ Cfg.wf ⟨11, 10, ⟨11, 3⟩⟩ = false := by decide

theorem test_wf_element : Fq2.wf Config.toy11 ⟨10, 10⟩ = true ∧ Fq2.wf Config.toy11 ⟨11, 0⟩ = false ∧ Fq2.wf Config.toy11 ⟨0, 11⟩ = false := by
  decide

theorem test_wf_port : PortIn.quiet.wf = true ∧ (writeCycle .cmd 6).wf = true ∧ bothStrobes.wf = false := by decide

theorem test_wf_program :
    programWf [.label (.named 0), .brset .status 0 (.named 0)] = true ∧
    programWf [.brset .status 0 (.named 0)] = false ∧
    programWf [.label (.named 0), .brset .status 384 (.named 0)] = false ∧
    programWf [.label (.named 0), .label (.named 1), .brset .status 0 (.named 1)] = true ∧
    programWf [.label (.named 0), .nop, .label (.named 0), .brset .status 0 (.named 0)] = false ∧
    programWf [.label (.fresh 0)] = false := by decide

/-- A branch to a label on two lines goes to the first of them (the model's choice, log 16). -/
theorem test_label_first : labelPlace (.named 0) [.nop, .label (.named 0), .nop, .label (.named 0)] 0 = 1 := by decide

/-- Every term of Instr is well formed, so no term is refused: the operands are single bits (30_encoding.md R70). -/
theorem test_wf_instr (i : Instr) : i.wf = true := by cases i <;> rfl

/-! ### Decoding: words written out from 30_encoding.md R70 and R72 -/

/-- ENCODE_FLAGS with c = 1, b = 0, a = 1: OPC 0001, bit 4 and bit 6 set. -/
theorem test_decode_encodeFlags : decode 0b1010001 = .ok (.encodeFlags true false true) := by decide +kernel
theorem test_decode_encodeFlags_b : decode 0b0100001 = .ok (.encodeFlags false true false) := by decide +kernel
theorem test_decode_decodeFlags : decode 0b0000010 = .ok .decodeFlags := by decide +kernel
theorem test_decode_fq2Sqrt : decode 0b0000011 = .ok .fq2Sqrt := by decide +kernel
theorem test_decode_compress : decode 0b0000100 = .ok .compress := by decide +kernel
theorem test_decode_compressInf : decode 0b0000101 = .ok .compressInf := by decide +kernel
theorem test_decode_decompress : decode 0b0000110 = .ok .decompress := by decide +kernel

/-- The illegal words of 95_test_vectors.md section 4.7. -/
theorem test_decode_bad_opcode :
    ([0x0, 0x7, 0x8, 0xf, 0x7f] : List Word).map decode = List.replicate 5 (.error .badOpcode) := by decide +kernel
theorem test_decode_reserved_bits :
    ([0x84, 0x14, 0x24, 0x46, 0x12, 0xf1, BitVec.ofNat 384 (2 ^ 383 + 6)] : List Word).map decode =
      List.replicate 7 (.error .reservedBits) := by decide +kernel

theorem test_table_word : decodeTableWord 384 0x71 = some (.encodeFlags true true true) ∧ decodeTableWord 384 0x84 = none ∧
    decodeTableWord 8 0x104 = some .compress ∧ decodeTableWord 392 (2 ^ 384 + 4) = none := by decide +kernel

/-! ### One step of each command (95_test_vectors.md sections 2.3 and 4) -/

theorem test_encodeFlags : runs 0x51 (idleState [(.xIm, 5)]) [(.z1, 2 ^ 383 + 2 ^ 381 + 5), (.xIm, 5), (.status, 0x2)] = true := by
  decide +kernel
theorem test_encodeFlags_cuts_payload : runs 0x11 (idleState [(.xIm, 2 ^ 381)]) [(.z1, 2 ^ 383), (.status, 0x2)] = true := by
  decide +kernel
theorem test_decodeFlags : runs 0x2 (idleState [(.z1, 2 ^ 383 + 2 ^ 381)]) [(.status, 0xa002)] = true := by decide +kernel
theorem test_decodeFlags_b : runs 0x2 (idleState [(.z1, 2 ^ 382)]) [(.status, 0x4002)] = true := by decide +kernel
theorem test_fq2Sqrt_one_plus_i : runs 0x3 (idleState [(.vRe, 1), (.vIm, 1)])
    [(.sRe, 17762053355598982733068895747455083532985687497302616910520483197021523181866),
     (.sIm, 20123464603569522293585279414964234107600076037241830781756986143168131853160), (.status, 0x1002)] = true := by
  decide +kernel
theorem test_fq2Sqrt_no_root : runs 0x3 (idleState [(.vRe, Config.bn254.b2.re), (.vIm, Config.bn254.b2.im), (.sRe, 7), (.sIm, 8)])
    [(.sRe, 7), (.sIm, 8), (.status, 0x2)] = true := by decide +kernel
theorem test_compress_fixture : runs 0x4 (idleState (point fixX fixY)) [(.z1, fixZ1), (.z2, fixX.re), (.status, 0x2)] = true := by
  decide +kernel
theorem test_compress_first_check_wins : runs 0x4 (idleState (point ⟨q, 2⟩ ⟨0, q⟩)) [(.z1, 0), (.z2, 0), (.status, 0x416)] = true := by
  decide +kernel
theorem test_compressInf : runs 0x5 (idleState [(.z1, 3), (.z2, 4)])
    [(.z1, 29551504647295859409209280075107710353809804452849085000961220053184291328622907958560699691163686730604970992730112),
     (.z2, 0), (.status, 0x2)] = true := by decide +kernel
theorem test_decompress_fixture : runs 0x6 (idleState [(.z1, fixZ1), (.z2, fixX.re)]) ((.status, 0x2) :: point fixX fixY) = true := by
  decide +kernel
theorem test_decompress_flag_before_range : runs 0x6 (idleState [(.z1, 2 ^ 383 + 2 ^ 382), (.z2, q), (.xRe, 5)])
    [(.status, 0x10e), (.xRe, 5), (.z2, q)] = true := by decide +kernel

/-- An illegal word keeps the registers and CMD, and reports itself (95_test_vectors.md section 4.7). -/
theorem test_illegal_word : runs 0x7f (idleState [(.z1, 9)]) [(.cmd, 0x7f), (.z1, 9), (.status, 0x72e)] = true := by decide +kernel

/-! ### The square root in a small field (95_test_vectors.md section 3.1) -/

theorem test_toy11_root : sqrtFq2 Config.toy11 ⟨0, 1⟩ = some ⟨4, 7⟩ ∧ sqrtFq2 Config.toy11 ⟨1, 1⟩ = none := by decide +kernel

/-- A configuration whose BETA is not −1: in FQ[i]/(i² − 2) over FQ = integers modulo 5, i is no square, and 2 has the
roots ±i. -/
theorem test_sqrt_other_beta : sqrtFq2 ⟨5, 2, ⟨1, 1⟩⟩ ⟨2, 0⟩ = some ⟨0, 4⟩ ∧ sqrtFq2 ⟨5, 2, ⟨1, 1⟩⟩ ⟨0, 1⟩ = none := by decide +kernel

/-! ### The configuration (00_scope.md R11) -/

theorem test_bn254_prime_value : q = 0x30644e72e131a029b85045b68181585d97816a916871ca8d3c208c16d87cfd47 ∧
    q = 36 * 4965661367192848881 ^ 4 + 36 * 4965661367192848881 ^ 3 + 24 * 4965661367192848881 ^ 2 + 6 * 4965661367192848881 + 1 := by
  decide +kernel

/-- B2 is 3/(9 + i). -/
theorem test_bn254_b2 : mul2 Config.bn254 Config.bn254.b2 ⟨9, 1⟩ = ⟨3, 0⟩ := by decide +kernel

/-- The fixture lies on the curve, and not with its coordinates swapped. -/
theorem test_fixture_on_curve : onCurve Config.bn254 fixX fixY = true ∧
    onCurve Config.bn254 ⟨fixX.im, fixX.re⟩ ⟨fixY.im, fixY.re⟩ = false := by decide +kernel

/-! ### The host's side -/

theorem test_run_expands : expand [.wr .xIm 5, .run .compress, .wait] =
    [.wr .xIm 5, .cmd .compress, .label (.fresh 0), .brset .status 0 (.fresh 0), .label (.fresh 1), .brset .status 0 (.fresh 1)] := by
  decide

/-- With c_flag set, bit 7 of byte 0 is 1 (20_memory.md R57). -/
theorem test_point_bytes : (pointBytes (BitVec.ofNat 384 (2 ^ 383 + 5)) 9).length = 96 ∧
    (pointBytes (BitVec.ofNat 384 (2 ^ 383 + 5)) 9).head? = some 0x80 ∧
    ((pointBytes (BitVec.ofNat 384 (2 ^ 383 + 5)) 9)[47]? = some 5) ∧
    bytesWord (wordBytes (BitVec.ofNat 384 (2 ^ 383 + 5))) = BitVec.ofNat 384 (2 ^ 383 + 5) := by decide +kernel

/-! ### Witnesses: for each statement with hypotheses, a state and operands that meet them, for each of its clauses -/

/-- An element whose norm has Jacobi symbol −1 is no square. -/
theorem not_hasRoot_of_jacobiSym {c : Cfg} (hc : c.wf = true) {v : Fq2} (h : jacobiSym (norm2 c v) c.q = -1) : ¬ HasRoot c v := by
  rintro ⟨y, -, rfl⟩
  have hq : 0 < c.q := by have := Cfg.wf_iff.mp hc; omega
  have hn : ((norm2 c (sqr2 c y) : Nat) : ZMod c.q) = ((norm2 c y * norm2 c y : Nat) : ZMod c.q) := by
    rw [sqr2, cast_norm2 hq, cast_mul2_re, cast_mul2_im, Nat.cast_mul, cast_norm2 hq]
    ring
  rw [ZMod.natCast_eq_natCast_iff, ← Int.natCast_modEq_iff] at hn
  rw [jacobiSym.mod_left' hn, Nat.cast_mul, jacobiSym.mul_left] at h
  nlinarith [mul_self_nonneg (jacobiSym (norm2 c y) c.q)]

theorem toy11_valid : Config.toy11.Valid := ⟨by decide, by norm_num [Config.toy11], by decide⟩

/-- CommandWordSelectsItsRow, the operand clause. -/
theorem witness_encode_operands : ∃ c b a : Bool, decode 0x71 = .ok (.encodeFlags c b a) := ⟨true, true, true, by decide +kernel⟩

/-- DecodeEncodeAgree: both sides hold of the last operand combination, and neither of a neighbouring word. -/
theorem witness_decode_encode : (Instr.encodeFlags true true true).wf = true ∧ decode 0x71 = .ok (.encodeFlags true true true) ∧
    encode (.encodeFlags true true true) = 0x71 ∧ decode 0xf1 ≠ .ok (.encodeFlags true true true) := by decide +kernel

/-- CompletionDecodesInOrder: a word in each clause, at the ends of its range (opcode 7 with other bits set; opcode 6
with only bit 7 set; opcode 2 with only bit 4 set; the legal words 0x71 and 0x6). -/
theorem witness_decode_order :
    (7 ≤ (0x7f : Word).toNat % 16) ∧
    ((0x86 : Word).toNat % 16 = 6 ∧ (0x86 : Word).toNat / 128 ≠ 0) ∧
    ((0x12 : Word).toNat % 16 = 2 ∧ (0x12 : Word).toNat / 128 = 0 ∧ (0x12 : Word).toNat / 16 % 8 ≠ 0) ∧
    ((0x71 : Word).toNat % 16 = 1 ∧ (0x71 : Word).toNat / 128 = 0) ∧
    ((0x6 : Word).toNat % 16 = 6 ∧ (0x6 : Word).toNat / 128 = 0 ∧ (0x6 : Word).toNat / 16 % 8 = 0) := by decide +kernel

/-- StepRunsTheDecodedCommand, both clauses; AcceptanceTakesTheWord, its third clause. -/
theorem witness_step_runs :
    ((busyState 0x6 1 []).phase = .busy 0x6 1 ∧ (nextInput (busyState 0x6 1 [])).rst = false ∧ decode 0x6 = .ok .decompress ∧
      Instr.decompress.wf = true) ∧
    ((busyState 0x7f 1 []).phase = .busy 0x7f 1 ∧ (nextInput (busyState 0x7f 1 [])).rst = false ∧
      decode 0x7f = .error .badOpcode) := by decide +kernel

/-- AcceptanceTakesTheWord, AcceptedCommandCompletes: an Idle block, an illegal word, and an access in the cycle after
it. -/
theorem witness_acceptance :
    let s := idleState [] [writeCycle .cmd 0x7f, readCycle .z1]
    s.phase = .idle ∧ (nextInput s).rst = false ∧ (nextInput s).wrEn = true ∧ (nextInput s).addr = 0 ∧
      (nextInput s).wrData = 0x7f ∧ ∀ p ∈ s.pending.tail, p.rst = false := by decide +kernel

/-- AcceptanceTakesTheWord's second clause, BusyWritesAreDropped: a CMD write while Busy. -/
theorem witness_busy_write :
    let s := busyState 0x4 2 [] [writeCycle .cmd 0x6]
    s.phase = .busy 0x4 2 ∧ (nextInput s).rst = false ∧ (nextInput s).wrEn = true := by decide +kernel

/-- CmdHoldsTheLastAcceptedWord: an input in each of its three cases. -/
theorem witness_cmd_cases :
    (nextInput (idleState [] [resetCycle])).rst = true ∧
    ((idleState [] [writeCycle .cmd 5]).phase = .idle ∧ (nextInput (idleState [] [writeCycle .cmd 5])).wrEn = true ∧
      (nextInput (idleState [] [writeCycle .cmd 5])).addr = 0) ∧
    ((busyState 0x4 2 [] [writeCycle .cmd 5]).phase ≠ .idle) := by decide +kernel

/-- IdleWriteSetsTheDataRegister, at the first and the last data register. -/
theorem witness_idle_write : ∀ r ∈ [RegName.z1, .sIm],
    (idleState [] [writeCycle r 9]).phase = .idle ∧ r.isData = true ∧ (nextInput (idleState [] [writeCycle r 9])).rst = false ∧
      (nextInput (idleState [] [writeCycle r 9])).wrEn = true ∧ (nextInput (idleState [] [writeCycle r 9])).addr = r.index := by
  decide +kernel

/-- StatusWritesAreIgnored. -/
theorem witness_status_write :
    (writeCycle .status 9).rst = false ∧ (writeCycle .status 9).wrEn = true ∧ (writeCycle .status 9).addr = 1 := by decide +kernel

/-- ReservedIndicesHoldNoState, at both ends of the range. -/
theorem witness_reserved : ∀ i ∈ ([12, 15] : List PortIndex), 12 ≤ i.toNat ∧
    ({ writeCycle .cmd 6 with addr := i } : PortIn).rst = false ∧ ({ writeCycle .cmd 6 with addr := i } : PortIn).wrEn = true ∧
    ({ writeCycle .cmd 6 with addr := i } : PortIn).addr = i := by
  simp [writeCycle]

/-- ReadShowsTheRegister: reads at both ends of the data registers and at both ends of the reserved range, Idle and
Busy. -/
theorem witness_reads : ∀ i ∈ [(0 : Nat), 1, 2, 11, 12, 15],
    let p : PortIn := { readCycle .cmd with addr := BitVec.ofNat 4 i }
    ∀ s ∈ [idleState [] [p], busyState 0x4 2 [] [p]], (nextInput s).rst = false ∧ (nextInput s).rdEn = true ∧
      (nextInput s).wrEn = false ∧ (nextInput s).addr.toNat = i := by decide +kernel

/-- ReadsHaveNoSideEffect. -/
theorem witness_read : (readCycle .z1).rst = false ∧ (readCycle .z1).wrEn = false ∧ (readCycle .z1).rdEn = true := by decide

/-- CollisionPerformsTheWrite. -/
theorem witness_collision : bothStrobes.rst = false ∧ bothStrobes.wrEn = true ∧ bothStrobes.rdEn = true := by decide

/-- OnlyResetAbortsACommand and ResetWinsOverEverything: a reset, with an access, in the cycle in which a command
would complete; and a cycle without reset. -/
theorem witness_abort :
    ((busyState 0x4 1 [] [{ bothStrobes with rst := true }]).phase = .busy 0x4 1 ∧
      (nextInput (busyState 0x4 1 [] [{ bothStrobes with rst := true }])).rst = true) ∧
    ((busyState 0x4 1 []).phase = .busy 0x4 1 ∧ (nextInput (busyState 0x4 1 [])).rst = false) := by decide +kernel

/-- The invariant holds of a Busy state: one cycle left is within any MAX_LATENCY. -/
theorem witness_invariant_busy : StateInv (busyState 0x7f 1 []) := by
  exact ⟨rfl, rfl, Nat.le_refl 1, Nat.le_add_left 1 _⟩

/-- The invariant holds of an Idle state after a failed command. -/
theorem witness_invariant_idle : StateInv (idleState [(.cmd, 0x4), (.status, 0x416)]) := by
  refine Or.inr ?_
  have h : decode ((idleState [(.cmd, 0x4), (.status, 0x416)]).regs.get .cmd) = .ok .compress := by decide +kernel
  rw [StatusFits, h]
  show _ ∈ [stat {}, failStat .opXRe, failStat .opXIm, failStat .opYRe, failStat .opYIm]
  refine List.mem_cons_of_mem _ (List.mem_cons.mpr (.inl ?_))
  decide +kernel

/-- EveryStepKeepsTheInvariant, StatusReservedBitsStayZero: a state that meets the invariant and steps on. -/
theorem witness_invariant_step : ∃ t : State, StateInv (busyState 0x7f 1 []) ∧ step (busyState 0x7f 1 []) = .next t :=
  ⟨_, witness_invariant_busy, rfl⟩

/-- StatusZeroMeansNothingAccepted: an Idle write from the reset state, and a reset while Busy. -/
theorem witness_status_zero :
    (∃ t : State, StateInv (idleState [] [writeCycle .z1 9]) ∧ step (idleState [] [writeCycle .z1 9]) = .next t ∧
      t.regs.get .status = 0) ∧
    (∃ t : State, StateInv (busyState 0x4 1 [] [resetCycle]) ∧ step (busyState 0x4 1 [] [resetCycle]) = .next t ∧
      t.regs.get .status = 0) :=
  ⟨⟨_, .inl ⟨rfl, rfl⟩, rfl, rfl⟩, ⟨_, ⟨rfl, rfl, Nat.le_refl 1, Nat.le_add_left 1 _⟩, rfl, rfl⟩⟩

/-- ResultsDoNotDependOnLatency: latencies 1 and 7, with accesses meanwhile. -/
theorem witness_latencies :
    (idleState (point fixX fixY)).phase = .idle ∧ 1 ≤ (fun (_ : Word) (_ : Regs) => 1) 0x4 (idleState (point fixX fixY)).regs ∧
    1 ≤ (fun (_ : Word) (_ : Regs) => 7) 0x4 (idleState (point fixX fixY)).regs ∧
    (∀ p ∈ [readCycle .z1], p.rst = false) ∧ (∀ p ∈ [writeCycle .cmd 6, readCycle .status], p.rst = false) := by decide +kernel

/-- A host program with a line of each form of 30_encoding.md R76. -/
def sampleProgram : List HostLine :=
  [.label (.named 0), .wr .xIm 5, .rd .xIm, .brset .status 0 (.named 0), .cmd .compress, .rst, .nop]

/-- HostLineTakesOneCycle: a line of each form that takes a cycle, at its place and with the cycle it takes. -/
theorem witness_host_lines : ∀ k ∈ [(1 : Nat), 2, 3, 4, 5, 6], ∃ (line : HostLine) (p : PortIn) (t : State),
    sampleProgram[k]? = some line ∧ lineCycle line = some p ∧ cycle hardwareEngine p State.reset = .next t := by
  intro k hk
  simp only [List.mem_cons, List.not_mem_nil, or_false] at hk
  rcases hk with rfl | rfl | rfl | rfl | rfl | rfl <;> exact ⟨_, _, _, rfl, rfl, rfl⟩

/-- HostLineTakesOneCycle: a label, on the line at which the host stands. -/
theorem witness_host_label : sampleProgram[(⟨0, []⟩ : HostState).line]? = some (.label (.named 0)) ∧
    HostLine.label (.named 0) ∈ sampleProgram := by decide

/-- StatSetsEveryField, at the ends of both ranges. -/
theorem witness_stat : ∀ f ∈ [({ ecode := 15, edet := 15 } : StatArgs), {}], f.ecode < 16 ∧ f.edet < 16 := by decide

/-- FailingCommandKeepsItsOperands: a command that fails. -/
theorem witness_failing : ∃ t : State, exec .compress (idleState [(.xRe, q)]) = .next t ∧ statErr (t.regs.get .status) = true :=
  ⟨_, rfl, by decide +kernel⟩

/-- CommandsDependOnlyOnWhatTheyRead: two states that agree on what DECOMPRESS reads and differ elsewhere. -/
theorem witness_same_operands :
    (∀ r ∈ readsOf .decompress, (idleState [(.z1, 5)]).regs.get r = (idleState [(.z1, 5), (.xRe, 7)]).regs.get r) ∧
    (idleState [(.z1, 5)]).regs.get .xRe ≠ (idleState [(.z1, 5), (.xRe, 7)]).regs.get .xRe := by decide +kernel

/-- CodecLaws, the last clause, at the top of its range. -/
theorem witness_payload : (2 : Nat) ^ 381 - 1 < 2 ^ 381 := by decide +kernel

/-- SignFlagLaws, ExtensionPowers: a configuration, and elements on both sides of every clause. -/
theorem witness_sign : Config.toy11.wf = true ∧ ∀ y ∈ [(⟨0, 0⟩ : Fq2), ⟨5, 0⟩, ⟨6, 0⟩, ⟨0, 5⟩, ⟨0, 6⟩, ⟨10, 1⟩],
    y.wf Config.toy11 = true ∧ (y ≠ zero2 ∨ aFlag Config.toy11 y = 0) := by decide +kernel

/-- CompressResult, at the largest operands. -/
theorem witness_compress :
    let s := idleState (point ⟨q - 1, q - 1⟩ ⟨q - 1, q - 1⟩)
    natOf s.regs .xRe < Config.hardware.q ∧ natOf s.regs .xIm < Config.hardware.q ∧ natOf s.regs .yRe < Config.hardware.q ∧
      natOf s.regs .yIm < Config.hardware.q := by decide +kernel

/-- CompressRangeErrors: each of its four clauses, at the value Q. -/
theorem witness_compress_range :
    Config.hardware.q ≤ natOf (idleState [(.xRe, q)]).regs .xRe ∧
    (natOf (idleState [(.xIm, q)]).regs .xRe < Config.hardware.q ∧ Config.hardware.q ≤ natOf (idleState [(.xIm, q)]).regs .xIm) ∧
    (natOf (idleState [(.yRe, q)]).regs .xRe < Config.hardware.q ∧ natOf (idleState [(.yRe, q)]).regs .xIm < Config.hardware.q ∧
      Config.hardware.q ≤ natOf (idleState [(.yRe, q)]).regs .yRe) ∧
    (natOf (idleState [(.yIm, q)]).regs .xRe < Config.hardware.q ∧ natOf (idleState [(.yIm, q)]).regs .xIm < Config.hardware.q ∧
      natOf (idleState [(.yIm, q)]).regs .yRe < Config.hardware.q ∧ Config.hardware.q ≤ natOf (idleState [(.yIm, q)]).regs .yIm) := by
  decide +kernel

/-- CompressionIsPure: two configurations with one Q, and two states with the same operands and different registers
beside them, for a compression that succeeds and for one that fails. -/
theorem witness_pure :
    (⟨11, 10, ⟨1, 3⟩⟩ : Cfg).q = (⟨11, 2, ⟨0, 0⟩⟩ : Cfg).q ∧
    (∀ x ∈ [(1 : Nat), 11], ∀ r ∈ [RegName.xRe, .xIm, .yRe, .yIm],
      (idleState [(.xRe, x)]).regs.get r = (idleState [(.xRe, x), (.z1, 9), (.vRe, 7)]).regs.get r) ∧
    statErr ((commandIn ⟨11, 10, ⟨1, 3⟩⟩ .compress (idleState [(.xRe, 1)])).regs.get .status) = false ∧
    statErr ((commandIn ⟨11, 10, ⟨1, 3⟩⟩ .compress (idleState [(.xRe, 11)])).regs.get .status) = true := by decide +kernel

/-- Fq2SqrtResult, Fq2SqrtMeetsItsContract: both range clauses at the value Q, and operands just below it. -/
theorem witness_sqrt_range :
    Config.hardware.q ≤ natOf (idleState [(.vRe, q), (.vIm, q)]).regs .vRe ∧
    (natOf (idleState [(.vRe, q - 1), (.vIm, q)]).regs .vRe < Config.hardware.q ∧
      Config.hardware.q ≤ natOf (idleState [(.vRe, q - 1), (.vIm, q)]).regs .vIm) ∧
    (natOf (idleState [(.vRe, q - 1), (.vIm, q - 1)]).regs .vRe < Config.hardware.q ∧
      natOf (idleState [(.vRe, q - 1), (.vIm, q - 1)]).regs .vIm < Config.hardware.q) := by decide +kernel

/-- Fq2SqrtMeetsItsContract: V = (Q − 1, 0) has the root (0, 1). -/
theorem witness_sqrt_found : HasRoot Config.hardware (fq2Of (idleState [(.vRe, q - 1)]).regs .vRe .vIm) :=
  ⟨⟨0, 1⟩, by decide +kernel, by decide +kernel⟩

/-- Fq2SqrtMeetsItsContract: V = B2 has no root (95_test_vectors.md section 4.3). -/
theorem witness_sqrt_not_found :
    ¬ HasRoot Config.hardware (fq2Of (idleState [(.vRe, Config.bn254.b2.re), (.vIm, Config.bn254.b2.im)]).regs .vRe .vIm) := by
  refine not_hasRoot_of_jacobiSym (by decide +kernel) ?_
  rw [show norm2 Config.hardware (fq2Of (idleState [(.vRe, Config.bn254.b2.re), (.vIm, Config.bn254.b2.im)]).regs .vRe .vIm) =
    21087453498479301738505683583845423561061080261299122796980902361914303298513 by decide +kernel, Config.hardware, Config.bn254]
  norm_num

/-- SquareRootMeetsItsContract, SquareTestByTheNorm, ReferenceMethodAgrees, SourceAlgorithmAgreesForThreeModEight: a
configuration and a nonzero element. -/
theorem witness_sqrt_configuration : Config.toy11.Valid ∧ Config.toy11.beta = Config.toy11.q - 1 ∧ Config.toy11.q % 8 = 3 ∧
    Fq2.wf Config.toy11 ⟨0, 1⟩ = true ∧ (⟨0, 1⟩ : Fq2) ≠ zero2 :=
  ⟨toy11_valid, by decide, by decide, by decide, by decide⟩

/-- RootsComeInPairs, CanonicalRootHasSignOne: (0, 1) has the root (4, 7) in TOY11, and ZERO2 has itself. -/
theorem witness_roots : Config.toy11.Valid ∧ (⟨0, 1⟩ : Fq2) ≠ zero2 ∧ IsRoot Config.toy11 ⟨4, 7⟩ ⟨0, 1⟩ ∧
    IsRoot Config.toy11 zero2 zero2 ∧ sqrtFq2 Config.toy11 ⟨0, 1⟩ = some ⟨4, 7⟩ :=
  ⟨toy11_valid, by decide, ⟨by decide, by decide⟩, ⟨by decide, by decide⟩, by decide +kernel⟩

/-- CanonicalChoiceIsSymmetric: an element with imaginary part 0 and one with another. -/
theorem witness_canon : Config.toy11.wf = true ∧ ∀ u ∈ [(⟨4, 7⟩ : Fq2), ⟨4, 0⟩], u.wf Config.toy11 = true ∧ neg2 Config.toy11 u ≠ u := by
  decide +kernel

/-- RootOfZero: the registers of the second clause. -/
theorem witness_zero_operand : (idleState []).regs.get .vRe = 0 ∧ (idleState []).regs.get .vIm = 0 := by decide

/-- The state in which a compressed form waits to be decompressed. -/
def form (z1 z2 : Nat) : State := idleState [(.z1, z1), (.z2, z2)]

/-- The infinity test of 44_decompressor.md R140 step 2. -/
def infForm (s : State) : Bool := decide (natOf s.regs .z1 % 2 ^ 381 = 0 ∧ natOf s.regs .z2 = 0)

/-- DecompressFollowsItsValidation: a form for each branch before the root is sought, at the ends of the ranges. -/
theorem witness_decompress :
    ((form (2 ^ 383 - 1) 0).regs.get .z1).getLsbD 383 = false ∧
    (((form (2 ^ 383) 0).regs.get .z1).getLsbD 383 = true ∧
      ((form (2 ^ 383) 0).regs.get .z1).getLsbD 382 ≠ infForm (form (2 ^ 383) 0)) ∧
    (((form (2 ^ 383 + 2 ^ 382 + 2 ^ 381) 0).regs.get .z1).getLsbD 382 = infForm (form (2 ^ 383 + 2 ^ 382 + 2 ^ 381) 0) ∧
      ((form (2 ^ 383 + 2 ^ 382 + 2 ^ 381) 0).regs.get .z1).getLsbD 381 = true) ∧
    (infForm (form (2 ^ 383 + 2 ^ 382) 0) = true ∧ ((form (2 ^ 383 + 2 ^ 382) 0).regs.get .z1).getLsbD 381 = false) ∧
    (infForm (form (2 ^ 383 + q) q) = false ∧ Config.hardware.q ≤ natOf (form (2 ^ 383 + q) q).regs .z1 % 2 ^ 381) ∧
    (natOf (form (2 ^ 383 + q - 1) q).regs .z1 % 2 ^ 381 < Config.hardware.q ∧
      Config.hardware.q ≤ natOf (form (2 ^ 383 + q - 1) q).regs .z2) := by decide +kernel

/-- DecompressFollowsItsValidation: the fixture has a root, x = (3, 0) has none (95_test_vectors.md sections 2.3 and
4.5). -/
theorem witness_decompress_root :
    HasRoot Config.hardware (curveRhs Config.hardware fixX) ∧ ¬ HasRoot Config.hardware (curveRhs Config.hardware ⟨3, 0⟩) := by
  refine ⟨⟨fixY, by decide +kernel, by decide +kernel⟩, not_hasRoot_of_jacobiSym (by decide +kernel) ?_⟩
  rw [show norm2 Config.hardware (curveRhs Config.hardware ⟨3, 0⟩) =
    800789373359973483740722161411851527635230895998700865708135532730922910817 by decide +kernel, Config.hardware, Config.bn254]
  norm_num

/-- InfinityRoundTrip: the pair of its second clause; its third clause's premise holds of what DECOMPRESS leaves
there. -/
theorem witness_infinity :
    (natOf (idleState [(.z1, 2 ^ 383 + 2 ^ 382)]).regs .z1 = 2 ^ 383 + 2 ^ 382 ∧ natOf (idleState [(.z1, 2 ^ 383 + 2 ^ 382)]).regs .z2 = 0) ∧
    ∃ t : State, exec .decompress (idleState [(.z1, 2 ^ 383 + 2 ^ 382)]) = .next t ∧ statInf (t.regs.get .status) = true :=
  ⟨by decide +kernel, _, rfl, by decide +kernel⟩

/-- FiniteRoundTrip: the TOY11 point x = (0, 1), y = (9, 5) of 95_test_vectors.md section 4.6. -/
theorem witness_finite :
    let s := idleState (point ⟨0, 1⟩ ⟨9, 5⟩)
    Config.toy11.Valid ∧ (fq2Of s.regs .xRe .xIm).wf Config.toy11 = true ∧ (fq2Of s.regs .yRe .yIm).wf Config.toy11 = true ∧
      onCurve Config.toy11 (fq2Of s.regs .xRe .xIm) (fq2Of s.regs .yRe .yIm) = true ∧ fq2Of s.regs .xRe .xIm ≠ zero2 :=
  ⟨toy11_valid, by decide +kernel, by decide +kernel, by decide +kernel, by decide +kernel⟩

/-- HardwareRoundTrip: the fixture. -/
theorem witness_hardware_point :
    let s := idleState (point fixX fixY)
    (fq2Of s.regs .xRe .xIm).wf Config.hardware = true ∧ (fq2Of s.regs .yRe .yIm).wf Config.hardware = true ∧
      onCurve Config.hardware (fq2Of s.regs .xRe .xIm) (fq2Of s.regs .yRe .yIm) = true ∧ fq2Of s.regs .xRe .xIm ≠ zero2 := by
  decide +kernel

theorem toy11_no_corner : ∀ x : Fq2, x.wf Config.toy11 = true → curveRhs Config.toy11 x ≠ zero2 := by
  have h : ∀ a < 11, ∀ b < 11, curveRhs Config.toy11 ⟨a, b⟩ ≠ zero2 := by decide +kernel
  intro x hx
  rw [Fq2.wf_iff] at hx
  exact h x.re hx.1 x.im hx.2

/-- AcceptedEncodingsAreCanonical: TOY11, an accepted finite encoding, the accepted infinity, and a point two words
decode to. -/
theorem witness_canonical :
    Config.toy11.Valid ∧ (∀ x : Fq2, x.wf Config.toy11 = true → curveRhs Config.toy11 x ≠ zero2) ∧
    (commandIn Config.toy11 .decompress (idleState [(.z1, 2 ^ 383 + 1)])).regs.get .status = 0x2 ∧
    (commandIn Config.toy11 .decompress (idleState [(.z1, 2 ^ 383 + 2 ^ 382)])).regs.get .status = 0x802 ∧
    decompressPoint Config.toy11 (BitVec.ofNat 384 (2 ^ 383 + 1)) 0 = .ok (.affine ⟨0, 1⟩ ⟨9, 5⟩) :=
  ⟨toy11_valid, toy11_no_corner, by decide +kernel, by decide +kernel, by decide +kernel⟩

/-- NotOnCurveIsUnreachable: a DECOMPRESS that completes. -/
theorem witness_decompress_next : ∃ t : State, exec .decompress (idleState [(.z1, fixZ1), (.z2, fixX.re)]) = .next t := ⟨_, rfl⟩

/-- ZeroXIsRefused. -/
theorem witness_zero_x :
    let s := idleState (point ⟨0, 0⟩ ⟨3, 4⟩)
    Config.toy11.wf = true ∧ s.regs.get .xRe = 0 ∧ s.regs.get .xIm = 0 ∧ (fq2Of s.regs .yRe .yIm).wf Config.toy11 = true := by
  decide +kernel

/-- HardwareHasNoCornerPoints: the largest element of FQ2. -/
theorem witness_element : Fq2.wf Config.hardware ⟨q - 1, q - 1⟩ = true := by decide +kernel

/-- FieldOperations: the largest field elements. -/
theorem witness_field : Config.toy11.wf = true ∧ (10 : Nat) < Config.toy11.q := by decide

/-- ExtensionInverse. -/
theorem witness_inverse : Config.toy11.Valid ∧ Fq2.wf Config.toy11 ⟨10, 10⟩ = true ∧ Fq2.wf Config.toy11 ⟨0, 1⟩ = true ∧
    (⟨0, 1⟩ : Fq2) ≠ zero2 :=
  ⟨toy11_valid, by decide, by decide, by decide⟩

end Sys2Proof.Tests
end

namespace Sys2Proof.Machine

variable {c : Cfg}

/-! ### The FQ operations (00_scope.md R16) -/

/-- A power by repeated squaring is the power modulo Q. -/
theorem fpow_eq_pow_mod (hq : 1 < c.q) (a e : Nat) : fpow c a e = a ^ e % c.q :=
  eq_of_cast (fpow_lt hq a e) (Nat.mod_lt _ (by omega)) (by simp)

@[simp] theorem fpow_zero (a : Nat) : fpow c a 0 = 1 := rfl

@[simp] theorem fneg_zero : fneg c 0 = 0 := Nat.mod_self c.q

theorem Cfg.one_lt_q (hc : c.wf = true) : 1 < c.q := by
  obtain ⟨-, htwo, -⟩ := Cfg.wf_iff.mp hc
  omega

/-- Settles O57: all operations but the power are the rule's own expressions. -/
theorem fieldOperations : Obligations.FieldOperations := by
  intro c hc a b e _ _
  exact ⟨rfl, rfl, rfl, fneg_zero, rfl, fpow_eq_pow_mod (Cfg.one_lt_q hc) a e, fpow_zero a⟩

/-! ### FQ2 inside the quadratic algebra over ZMod Q -/

/-- An FQ2 element as an element of (Z/Q)[i]/(i² − BETA), the ring of 00_scope.md R17. -/
def toQuadratic (c : Cfg) (u : Fq2) : QuadraticAlgebra (ZMod c.q) (c.beta : ZMod c.q) 0 := ⟨u.re, u.im⟩

@[simp] theorem toQuadratic_one2 : toQuadratic c one2 = 1 := by
  ext
  · simp [toQuadratic, one2, QuadraticAlgebra.re_one]
  · simp [toQuadratic, one2, QuadraticAlgebra.im_one]

@[simp] theorem toQuadratic_mul2 (u v : Fq2) : toQuadratic c (mul2 c u v) = toQuadratic c u * toQuadratic c v := by
  ext
  · simp [toQuadratic, cast_mul2_re, mul_assoc]
  · simp [toQuadratic, cast_mul2_im]

@[simp] theorem toQuadratic_pow2 (u : Fq2) (e : Nat) : toQuadratic c (pow2 c u e) = toQuadratic c u ^ e :=
  powBy_map (mul2 c) one2 u (toQuadratic c) toQuadratic_mul2 toQuadratic_one2 e

/-- Reduced elements are determined by their image. -/
theorem toQuadratic_injOn {u v : Fq2} (hu : u.wf c = true) (hv : v.wf c = true)
    (h : toQuadratic c u = toQuadratic c v) : u = v := by
  obtain ⟨hre, him⟩ := QuadraticAlgebra.ext_iff.mp h
  exact fq2_eq_of_cast hu hv hre him

/-! ### Powers in FQ2 (00_scope.md R21) -/

theorem one2_wf (hq : 1 < c.q) : one2.wf c = true :=
  (Fq2.wf_iff one2).mpr ⟨hq, Nat.lt_of_succ_lt hq⟩

theorem pow2_wf (hq : 1 < c.q) (u : Fq2) (e : Nat) : (pow2 c u e).wf c = true :=
  powLoop_ind (mul2 c) (fun x => x.wf c = true) (mul2_wf (Nat.lt_of_succ_lt hq)) _ _ _ _ (one2_wf hq)

@[simp] theorem pow2_zero (u : Fq2) : pow2 c u 0 = one2 := rfl

theorem pow2_succ (hq : 1 < c.q) (u : Fq2) (e : Nat) : pow2 c u (e + 1) = mul2 c (pow2 c u e) u := by
  refine toQuadratic_injOn (pow2_wf hq u _) (mul2_wf (Nat.lt_of_succ_lt hq) _ _) ?_
  rw [toQuadratic_mul2, toQuadratic_pow2, toQuadratic_pow2, pow_succ]

/-- Settles O58: the recursion holds in the quadratic algebra, where a power by repeated squaring is the power. -/
theorem extensionPowers : Obligations.ExtensionPowers := by
  intro c u e hc _
  exact ⟨pow2_zero u, pow2_succ (Cfg.one_lt_q hc) u e, pow2_zero zero2⟩

/-! ### Inverses in FQ2 (00_scope.md R22) -/

theorem norm2_ne_zero (hc : c.Valid) {v : Fq2} (hv : v.wf c = true) (h0 : v ≠ zero2) : norm2 c v ≠ 0 :=
  fun h => cast_norm2_ne_zero hc hv h0 (by rw [h, Nat.cast_zero])

/-- inv2 is the conjugate divided by the norm. -/
theorem toQuadratic_inv2 (hc : c.Valid) (v : Fq2) : toQuadratic c (inv2 c v) =
    ⟨v.re * (norm2 c v : ZMod c.q)⁻¹, -(v.im * (norm2 c v : ZMod c.q)⁻¹)⟩ := by
  have hlt := fmul_lt hc.prime.pos v.im (finv c (norm2 c v))
  ext
  · simp [toQuadratic, inv2, cast_finv hc]
  · simp [toQuadratic, inv2, cast_fneg hlt.le, cast_finv hc]

/-- v times its conjugate is the norm of v, so v times inv2 v is 1. -/
theorem toQuadratic_mul_inv2 (hc : c.Valid) {v : Fq2} (hv : v.wf c = true) (h0 : v ≠ zero2) :
    toQuadratic c v * toQuadratic c (inv2 c v) = 1 := by
  have := valid_fact hc
  have hN := cast_norm2_ne_zero hc hv h0
  have hdef := cast_norm2 hc.prime.pos v
  rw [toQuadratic_inv2 hc]
  ext
  · simp only [toQuadratic, QuadraticAlgebra.re_mul, QuadraticAlgebra.re_one]
    field_simp
    linear_combination -hdef
  · simp only [toQuadratic, QuadraticAlgebra.im_mul, QuadraticAlgebra.im_one]
    ring

theorem mul2_inv2 (hc : c.Valid) {v : Fq2} (hv : v.wf c = true) (h0 : v ≠ zero2) : mul2 c v (inv2 c v) = one2 := by
  refine toQuadratic_injOn (mul2_wf hc.prime.pos _ _) (one2_wf hc.prime.one_lt) ?_
  rw [toQuadratic_mul2, toQuadratic_mul_inv2 hc hv h0, toQuadratic_one2]

/-- A quotient times its divisor is the dividend. -/
theorem mul2_div2_cancel (hc : c.Valid) {u v : Fq2} (hu : u.wf c = true) (hv : v.wf c = true) (h0 : v ≠ zero2) :
    mul2 c (div2 c u v) v = u := by
  refine toQuadratic_injOn (mul2_wf hc.prime.pos _ _) hu ?_
  rw [div2, toQuadratic_mul2, toQuadratic_mul2, mul_assoc, mul_comm (toQuadratic c (inv2 c v)),
    toQuadratic_mul_inv2 hc hv h0, mul_one]

/-- Settles O59: the norm vanishes at ZERO2 alone, since BETA is no square. -/
theorem extensionInverse : Obligations.ExtensionInverse := by
  intro c u v hc hu hv h0
  exact ⟨norm2_ne_zero hc hv h0, mul2_inv2 hc hv h0, mul2_div2_cancel hc hu hv h0⟩

/-! ### The configuration of the hardware (00_scope.md R8, R9, R11): Q is prime by Pocklington's criterion -/

/-- The powers that show that `r` divides the order of `a` modulo every prime divisor of Q. -/
def orderCheck (c : Cfg) (a r : Nat) : Bool :=
  decide (r ∣ c.q - 1) && decide (fpow c a (c.q - 1) = 1) &&
    decide (Nat.Coprime (fsub c (fpow c a ((c.q - 1) / r)) 1) c.q)

theorem orderCheck_iff (a r : Nat) : orderCheck c a r = true ↔
    r ∣ c.q - 1 ∧ fpow c a (c.q - 1) = 1 ∧ Nat.Coprime (fsub c (fpow c a ((c.q - 1) / r)) 1) c.q := by
  simp [orderCheck, and_assoc]

/-- `cast_fpow` modulo a divisor of Q. -/
theorem cast_fpow_of_dvd {p : Nat} (hp : p ∣ c.q) (a e : Nat) : (fpow c a e : ZMod p) = (a : ZMod p) ^ e := by
  have h := congrArg (ZMod.castHom hp (ZMod p)) (cast_fpow (c := c) a e)
  rwa [map_natCast, map_pow, map_natCast] at h

/-- `cast_fsub` modulo a divisor of Q. -/
theorem cast_fsub_of_dvd {p b : Nat} (hp : p ∣ c.q) (a : Nat) (h : b ≤ c.q) : (fsub c a b : ZMod p) = a - b := by
  have h' := congrArg (ZMod.castHom hp (ZMod p)) (cast_fsub (c := c) a h)
  rwa [map_natCast, map_sub, map_natCast, map_natCast] at h'

/-- The step of Pocklington's criterion: a prime `r` that passes the check divides p − 1 for each prime p that
divides Q. -/
theorem dvd_sub_one_of_orderCheck {a r p : Nat} (hq : 0 < c.q) (hr : r.Prime) (h : orderCheck c a r = true)
    (hp : p.Prime) (hpq : p ∣ c.q) : r ∣ p - 1 := by
  have : Fact p.Prime := ⟨hp⟩
  obtain ⟨⟨k, hk⟩, hone, hcop⟩ := (orderCheck_iff a r).mp h
  rw [hk, Nat.mul_div_cancel_left k hr.pos] at hcop
  have hpow : (a : ZMod p) ^ (r * k) = 1 := by rw [← hk, ← cast_fpow_of_dvd hpq, hone, Nat.cast_one]
  have hne : (a : ZMod p) ^ k ≠ 1 := by
    intro hk1
    refine hp.one_lt.ne' (Nat.eq_one_of_dvd_coprimes hcop ?_ hpq)
    rw [← ZMod.natCast_eq_zero_iff, cast_fsub_of_dvd hpq _ hq, cast_fpow_of_dvd hpq, hk1, Nat.cast_one, sub_self]
  have hord : r ∣ orderOf (a : ZMod p) := by
    by_contra hr'
    have hcop' : (orderOf (a : ZMod p)).Coprime r := ((hr.coprime_iff_not_dvd).mpr hr').symm
    exact hne (orderOf_dvd_iff_pow_eq_one.mp (hcop'.dvd_of_dvd_mul_left (orderOf_dvd_of_pow_eq_one hpow)))
  have ha : (a : ZMod p) ≠ 0 := by
    intro h0
    rw [h0] at hpow hne
    rcases Nat.eq_zero_or_pos k with rfl | hk0
    · exact hne (pow_zero 0)
    · exact zero_ne_one ((zero_pow (Nat.mul_pos hr.pos hk0).ne').symm.trans hpow)
  exact hord.trans (ZMod.orderOf_dvd_card_sub_one ha)

/-- The end of Pocklington's criterion: a number is prime when every prime divisor of it is 1 modulo a number above
its square root. -/
theorem prime_of_dvd_sub_one {n F : Nat} (hn : 1 < n) (hF : n < F ^ 2) (h : ∀ p : Nat, p.Prime → p ∣ n → F ∣ p - 1) :
    n.Prime := by
  by_contra hnp
  have hp : n.minFac.Prime := Nat.minFac_prime (by omega)
  have hle : F ≤ n.minFac - 1 := Nat.le_of_dvd (by have := hp.two_le; omega) (h _ hp n.minFac_dvd)
  have hsq : F ^ 2 ≤ n := (Nat.pow_le_pow_left (by omega) 2).trans (Nat.minFac_sq_le_self (by omega) hnp)
  omega

/-- The largest prime factor of Q − 1 of CFG_BN254, as the modulus of a configuration. -/
def bn254FactorCfg : Cfg := ⟨13427688667394608761327070753331941386769, 0, zero2⟩

theorem bn254Factor_prime : bn254FactorCfg.q.Prime := by
  refine prime_of_dvd_sub_one (F := 173171039 * (4562087 * 1853641)) (by decide) (by decide) fun p hp hpq => ?_
  have hdvd : ∀ r : Nat, r.Prime → orderCheck bn254FactorCfg 2 r = true → r ∣ p - 1 := fun r hr h =>
    dvd_sub_one_of_orderCheck (by decide) hr h hp hpq
  refine Nat.Coprime.mul_dvd_of_dvd_of_dvd (by norm_num) (hdvd _ (by norm_num) (by decide +kernel)) ?_
  exact Nat.Coprime.mul_dvd_of_dvd_of_dvd (by norm_num) (hdvd _ (by norm_num) (by decide +kernel))
    (hdvd _ (by norm_num) (by decide +kernel))

theorem hardware_q_prime : Config.hardware.q.Prime := by
  refine prime_of_dvd_sub_one (F := bn254FactorCfg.q) (by decide) (by decide) fun p hp hpq => ?_
  exact dvd_sub_one_of_orderCheck (a := 2) (by decide) bn254Factor_prime (by decide +kernel) hp hpq

theorem hardware_q_mod_four : Config.hardware.q % 4 = 3 := by decide

theorem hardware_beta_eq : Config.hardware.beta = Config.hardware.q - 1 := by decide

/-- With BETA = −1, the non-residue constraint is Q ≡ 3 (mod 4) (00_scope.md R9). -/
theorem nonresidue_of_mod_four (hp : c.q.Prime) (hbeta : c.beta = c.q - 1) (h4 : c.q % 4 = 3) :
    ∀ x < c.q, x * x % c.q ≠ c.beta := by
  have : Fact c.q.Prime := ⟨hp⟩
  intro x _ hx
  refine ZMod.mod_four_ne_three_of_sq_eq_neg_one (p := c.q) (y := (x : ZMod c.q)) ?_ h4
  have := congrArg (Nat.cast : Nat → ZMod c.q) hx
  rw [hbeta, Nat.cast_sub hp.one_lt.le] at this
  simpa [pow_two] using this

theorem hardware_valid : Config.hardware.Valid where
  wf := by decide +kernel
  prime := hardware_q_prime
  nonresidue := nonresidue_of_mod_four hardware_q_prime hardware_beta_eq hardware_q_mod_four

/-- Settles O60: Q is prime by Pocklington's criterion, and −1 is no square modulo a prime that is 3 modulo 4. -/
theorem hardwareConfigurationIsValid : Obligations.HardwareConfigurationIsValid :=
  ⟨hardware_valid, hardware_beta_eq, hardware_q_mod_four⟩

end Sys2Proof.Machine

namespace Sys2Proof.Machine

/-! ### The STATUS word: the value of Stat and its fields (10_state.md R35, R37) -/

/-- A bit of a word, from the word's quotient by that power of two. -/
theorem getLsbD_eq_of_toNat_div {w : Word} {k : Nat} {b : Bool} (h : w.toNat / 2 ^ k % 2 = b.toNat) :
    w.getLsbD k = b := by
  rw [getLsbD_eq_decide, h]
  cases b <;> rfl

section Stat

variable {f : StatArgs}

/-- Every flag of Stat takes one bit. -/
theorem StatArgs.flags_le_one (f : StatArgs) : f.err.toNat ≤ 1 ∧ f.inf.toNat ≤ 1 ∧ f.found.toNat ≤ 1 ∧
    f.fc.toNat ≤ 1 ∧ f.fb.toNat ≤ 1 ∧ f.fa.toNat ≤ 1 :=
  ⟨f.err.toNat_le, f.inf.toNat_le, f.found.toNat_le, f.fc.toNat_le, f.fb.toNat_le, f.fa.toNat_le⟩

set_option exponentiation.threshold 400 in
/-- The sum of R37 lies below 2^16, so it is the value of the register. -/
theorem stat_toNat (hecode : f.ecode < 16) (hedet : f.edet < 16) :
    (stat f).toNat = 2 + 4 * f.err.toNat + 8 * f.ecode + 128 * f.edet + 2048 * f.inf.toNat + 4096 * f.found.toNat +
      8192 * f.fc.toNat + 16384 * f.fb.toNat + 32768 * f.fa.toNat := by
  have hflags := f.flags_le_one
  rw [stat, BitVec.toNat_ofNat]
  exact Nat.mod_eq_of_lt (Nat.lt_trans (m := 2 ^ 16) (by omega) (Nat.pow_lt_pow_right Nat.one_lt_two (by decide)))

theorem stat_toNat_lt (hecode : f.ecode < 16) (hedet : f.edet < 16) : (stat f).toNat < 2 ^ 16 := by
  have hflags := f.flags_le_one
  rw [stat_toNat hecode hedet]
  omega

/-- Every field of Stat reads back as its argument, with BUSY = 0 and DONE = 1. -/
theorem stat_fields (hecode : f.ecode < 16) (hedet : f.edet < 16) :
    statBusy (stat f) = false ∧ statDone (stat f) = true ∧ statErr (stat f) = f.err ∧ statEcode (stat f) = f.ecode ∧
    statEdetail (stat f) = f.edet ∧ statInf (stat f) = f.inf ∧ statFound (stat f) = f.found ∧ statFc (stat f) = f.fc ∧
    statFb (stat f) = f.fb ∧ statFa (stat f) = f.fa := by
  have hflags := f.flags_le_one
  have hval := stat_toNat hecode hedet
  refine ⟨?busy, ?done, ?err, ?ecode, ?edet, ?inf, ?found, ?fc, ?fb, ?fa⟩
  case ecode | edet =>
    simp only [statEcode, statEdetail, BitVec.extractLsb'_toNat, Nat.shiftRight_eq_div_pow]
    omega
  case busy | done =>
    refine getLsbD_eq_of_toNat_div ?_
    simp only [Bool.toNat_true, Bool.toNat_false]
    omega
  all_goals exact getLsbD_eq_of_toNat_div (by omega)

/-- Settles O26: R37's sum puts every argument into its own bits. -/
theorem statSetsEveryField : Obligations.StatSetsEveryField := by
  intro f hecode hedet
  obtain ⟨hbusy, hdone, herr, hec, hed, hinf, hfound, hfc, hfb, hfa⟩ := stat_fields hecode hedet
  exact ⟨stat_toNat hecode hedet, hbusy, hdone, herr, hec, hed, hinf, hfound, hfc, hfb, hfa,
    stat_toNat_lt hecode hedet⟩

end Stat

/-- What STATUS shows of every completion: DONE = 1, BUSY = 0 and the reserved bits 0 (10_state.md R35, R37). -/
structure StatusDone (st : Word) : Prop where
  done : statDone st = true
  notBusy : statBusy st = false
  lt : st.toNat < 2 ^ 16

theorem statusDone_stat {f : StatArgs} (hecode : f.ecode < 16) (hedet : f.edet < 16) : StatusDone (stat f) := by
  obtain ⟨hbusy, hdone, -⟩ := stat_fields hecode hedet
  exact ⟨hdone, hbusy, stat_toNat_lt hecode hedet⟩

theorem ErrorKind.code_lt (k : ErrorKind) : k.code < 16 := by cases k <;> decide

theorem Detail.code_lt (d : Detail) : d.code < 16 := by cases d <;> decide

@[simp] theorem statusDone_failStat (d : Detail) : StatusDone (failStat d) := statusDone_stat d.kind.code_lt d.code_lt

@[simp] theorem statErr_failStat (d : Detail) : statErr (failStat d) = true := by
  obtain ⟨-, -, herr, -⟩ :=
    stat_fields (f := { err := true, ecode := d.kind.code, edet := d.code }) d.kind.code_lt d.code_lt
  exact herr

/-- Every value that a completed word can leave shows a completion. -/
theorem StatusFits.statusDone {cw st : Word} (h : StatusFits cw st) : StatusDone st := by
  have hflags : ∀ inf found fc fb fa : Bool,
      StatusDone (stat { inf := inf, found := found, fc := fc, fb := fb, fa := fa }) := fun _ _ _ _ _ =>
    statusDone_stat (by decide : 0 < 16) (by decide : 0 < 16)
  unfold StatusFits at h
  split at h
  case h_1 => exact h ▸ statusDone_failStat _
  case h_2 => exact h ▸ hflags ..
  case h_3 =>
    obtain ⟨fc, fb, fa, rfl⟩ := h
    exact hflags ..
  case h_6 => exact h ▸ hflags ..
  case h_4 | h_5 | h_7 =>
    revert st
    simp [hflags]

theorem stateInv_idle_iff {s : State} (h : s.phase = .idle) : StateInv s ↔
    (s.regs.get .cmd = 0 ∧ s.regs.get .status = 0) ∨ StatusFits (s.regs.get .cmd) (s.regs.get .status) := by
  rw [StateInv, h]

theorem stateInv_busy_iff {s : State} {cw : Word} {n : Nat} (h : s.phase = .busy cw n) : StateInv s ↔
    s.regs.get .cmd = cw ∧ s.regs.get .status = busyStat ∧ 1 ≤ n ∧ n ≤ Config.maxLatency := by
  rw [StateInv, h]

theorem statBusy_busyStat : statBusy busyStat = true := by simp [statBusy, busyStat]

theorem statDone_busyStat : statDone busyStat = false := by simp [statDone, busyStat]

set_option exponentiation.threshold 400 in
/-- Settles O21: BUSY alone while Busy; while Idle, STATUS is 0 or shows a completion. -/
theorem statusReservedBitsStayZero : Obligations.StatusReservedBitsStayZero := by
  intro s hinv
  cases hphase : s.phase with
  | busy cw n =>
    obtain ⟨-, hst, -⟩ := (stateInv_busy_iff hphase).mp hinv
    rw [hst]
    exact ⟨by simp [busyStat], by simp [statBusy_busyStat], by simp [statDone_busyStat]⟩
  | idle =>
    rcases (stateInv_idle_iff hphase).mp hinv with ⟨-, hst⟩ | hfits
    · rw [hst]
      exact ⟨by simp, by simp [statBusy], by simp [statBusy]⟩
    · obtain ⟨hdone, hbusy, hlt⟩ := hfits.statusDone
      exact ⟨hlt, by simp [hbusy], by simp [hbusy]⟩

/-! ### What a command leaves (10_state.md R30, R32) -/

/-- The frame of a command (10_state.md R30, "written by"). -/
theorem commandIn_get_of_notMem (c : Cfg) (i : Instr) (s : State) {r : RegName} (hst : r ≠ .status) (hr : r ∉ writesOf i) :
    (commandIn c i s).regs.get r = s.regs.get r := by
  cases i with
  | encodeFlags fc fb fa =>
    simp only [writesOf, List.mem_singleton] at hr
    simp [commandIn, encodeFlagsRule, hst, hr]
  | decodeFlags => simp [commandIn, decodeFlagsRule, hst]
  | fq2Sqrt =>
    simp only [writesOf, List.mem_cons, List.not_mem_nil, or_false, not_or] at hr
    obtain ⟨hre, him⟩ := hr
    rcases fq2SqrtRule_cases c s with ⟨d, -, h⟩ | ⟨-, -, h⟩ | ⟨root, -, -, h⟩ <;>
      simp [commandIn, h, get_setFq2, hst, hre, him]
  | compress =>
    simp only [writesOf, List.mem_cons, List.not_mem_nil, or_false, not_or] at hr
    obtain ⟨hz1, hz2⟩ := hr
    rcases compressRule_cases c s with ⟨d, -, h⟩ | ⟨-, h⟩ <;>
      simp [commandIn, h, get_setCompressed, hst, hz1, hz2]
  | compressInf =>
    simp only [writesOf, List.mem_cons, List.not_mem_nil, or_false, not_or] at hr
    obtain ⟨hz1, hz2⟩ := hr
    simp [commandIn, compressInfRule, get_setCompressed, hst, hz1, hz2]
  | decompress =>
    simp only [writesOf, List.mem_cons, List.not_mem_nil, or_false, not_or] at hr
    obtain ⟨hxRe, hxIm, hyRe, hyIm⟩ := hr
    rcases decompressRule_cases c s with ⟨d, -, h⟩ | ⟨px, py, -, h⟩ | ⟨-, h⟩ <;>
      simp [commandIn, h, get_setFq2, hst, hxRe, hxIm, hyRe, hyIm]

theorem cmd_notMem_writesOf (i : Instr) : RegName.cmd ∉ writesOf i := by
  cases i <;> simp [writesOf]

/-- No command writes CMD (10_state.md R34). -/
@[simp] theorem commandIn_get_cmd (c : Cfg) (i : Instr) (s : State) :
    (commandIn c i s).regs.get .cmd = s.regs.get .cmd :=
  commandIn_get_of_notMem c i s (by decide) (cmd_notMem_writesOf i)

/-- The details with which a finite point can fail (44_decompressor.md R140 steps 4 to 9). -/
theorem decompressFinite_error {c : Cfg} {a : Bool} {xIm xRe : Nat} {d : Detail}
    (h : decompressFinite c a xIm xRe = .error d) : d ∈ [Detail.xImRange, .xReRange, .noRoot, .notOnCurve] := by
  unfold decompressFinite at h
  dsimp only at h
  repeat' split at h
  all_goals cases h
  all_goals decide

/-- The details with which DECOMPRESS can fail (44_decompressor.md R140). -/
theorem decompressPoint_error {c : Cfg} {z1 z2 : Word} {d : Detail} (h : decompressPoint c z1 z2 = .error d) :
    d ∈ [Detail.cFlagClear, .bFlagMismatch, .aFlagOnInfinity, .xImRange, .xReRange, .noRoot, .notOnCurve] := by
  unfold decompressPoint at h
  dsimp only at h
  split at h
  · cases h; decide
  · split at h
    · cases h; decide
    · split at h
      · split at h
        · cases h; decide
        · cases h
      · have hfin := decompressFinite_error h
        simp only [List.mem_cons] at hfin ⊢
        exact .inr (.inr (.inr hfin))

/-- A command leaves STATUS at a value that its word can leave (10_state.md R37; 60_exceptions.md R164). -/
theorem statusFits_commandIn {cw : Word} {i : Instr} (hdec : decode cw = .ok i) (c : Cfg) (s : State) :
    StatusFits cw ((commandIn c i s).regs.get .status) := by
  rw [StatusFits, hdec]
  cases i with
  | encodeFlags fc fb fa => simp [commandIn, encodeFlagsRule]
  | decodeFlags => exact ⟨_, _, _, rfl⟩
  | compressInf => simp [commandIn, compressInfRule]
  | fq2Sqrt =>
    rcases fq2SqrtRule_cases c s with ⟨d, hd, h⟩ | ⟨-, -, h⟩ | ⟨root, -, -, h⟩
    · obtain ⟨r, hmem, -⟩ := firstOutOfRange_mem hd
      simp only [sqrtChecks, List.mem_cons, Prod.mk.injEq, List.not_mem_nil, or_false] at hmem
      rcases hmem with ⟨-, rfl⟩ | ⟨-, rfl⟩ <;> simp [commandIn, h]
    · simp [commandIn, h]
    · simp [commandIn, h]
  | compress =>
    rcases compressRule_cases c s with ⟨d, hd, h⟩ | ⟨-, h⟩
    · obtain ⟨r, hmem, -⟩ := firstOutOfRange_mem hd
      simp only [compressChecks, List.mem_cons, Prod.mk.injEq, List.not_mem_nil, or_false] at hmem
      rcases hmem with ⟨-, rfl⟩ | ⟨-, rfl⟩ | ⟨-, rfl⟩ | ⟨-, rfl⟩ <;> simp [commandIn, h]
    · simp [commandIn, h]
  | decompress =>
    rcases decompressRule_cases c s with ⟨d, hd, h⟩ | ⟨px, py, -, h⟩ | ⟨-, h⟩
    · have hmem := List.mem_map_of_mem (f := failStat) (decompressPoint_error hd)
      simp only [commandIn, h, raise_regs, Regs.get_set_self]
      exact List.mem_cons_of_mem _ (List.mem_cons_of_mem _ hmem)
    · simp [commandIn, h]
    · simp [commandIn, h]

/-- The word of a command decodes to it (30_encoding.md R72, R75). -/
theorem decode_encode (i : Instr) : decode (encode i) = .ok i := by
  cases i with
  | encodeFlags c b a => revert c b a; decide +kernel
  | decodeFlags | fq2Sqrt | compress | compressInf | decompress => decide +kernel

/-- Settles O29: STATUS is a value that the command's own word can leave. -/
theorem commandsWriteOnlyTheirRegisters : Obligations.CommandsWriteOnlyTheirRegisters := by
  intro i s
  obtain ⟨hdone, hbusy, hlt⟩ := (statusFits_commandIn (decode_encode i) Config.hardware s).statusDone
  exact ⟨_, _, exec_eq i s, ⟨commandIn_phase .., rfl, fun _ => commandIn_get_of_notMem _ i s,
    commandIn_rdData .., commandIn_draws .., commandIn_pending ..⟩, hdone, hbusy, hlt⟩

/-- The operand checks see the checked registers alone. -/
theorem firstOutOfRange_congr (c : Cfg) {x y : Regs} {l : List (RegName × Detail)}
    (h : ∀ rd ∈ l, x.get rd.1 = y.get rd.1) : firstOutOfRange c x l = firstOutOfRange c y l := by
  induction l with
  | nil => rfl
  | cons rd rest ih =>
    obtain ⟨r, d⟩ := rd
    have hr : natOf x r = natOf y r := congrArg BitVec.toNat (h (r, d) (List.mem_cons_self ..))
    rw [firstOutOfRange, firstOutOfRange, hr, ih fun rd hrd => h rd (List.mem_cons_of_mem _ hrd)]

theorem fq2Of_congr {x y : Regs} {re im : RegName} (hre : x.get re = y.get re) (him : x.get im = y.get im) :
    fq2Of x re im = fq2Of y re im := by
  simp only [fq2Of, natOf, hre, him]

/-- `t` after `s` and `t'` after `s'` show the same result of a command: the same STATUS, and the same values in the
registers it writes or none written in both. -/
def SameResult (i : Instr) (s s' t t' : State) : Prop :=
  t.regs.get .status = t'.regs.get .status ∧
    ((∀ r ∈ writesOf i, t.regs.get r = t'.regs.get r) ∨
      (∀ r ∈ writesOf i, t.regs.get r = s.regs.get r ∧ t'.regs.get r = s'.regs.get r))

theorem status_notMem_writesOf (i : Instr) : RegName.status ∉ writesOf i := by
  cases i <;> simp [writesOf]

theorem ne_status_of_mem_writesOf {i : Instr} {r : RegName} (hr : r ∈ writesOf i) : r ≠ .status :=
  fun h => status_notMem_writesOf i (h ▸ hr)

/-- Two failures of one check. -/
theorem sameResult_raise (i : Instr) (d : Detail) (s s' : State) : SameResult i s s' (raise d s) (raise d s') :=
  ⟨by simp, .inr fun r hr => by simp [ne_status_of_mem_writesOf hr]⟩

/-- Two completions with the same values in the written registers. -/
theorem sameResult_finish {i : Instr} (f : StatArgs) {x y : Regs} (s s' : State)
    (h : ∀ r ∈ writesOf i, x.get r = y.get r) : SameResult i s s' (finish f x s) (finish f y s') :=
  ⟨by simp, .inl fun r hr => by simp [ne_status_of_mem_writesOf hr, h r hr]⟩

/-- Two completions that write STATUS alone. -/
theorem sameResult_finish_self (i : Instr) (f : StatArgs) (s s' : State) :
    SameResult i s s' (finish f s.regs s) (finish f s'.regs s') :=
  ⟨by simp, .inr fun r hr => by simp [ne_status_of_mem_writesOf hr]⟩

/-- Noninterference (10_state.md R32): states that agree on what a command reads give the same result. -/
theorem commandIn_sameResult (c : Cfg) (i : Instr) {s s' : State} (h : ∀ r ∈ readsOf i, s.regs.get r = s'.regs.get r) :
    SameResult i s s' (commandIn c i s) (commandIn c i s') := by
  cases i with
  | encodeFlags fc fb fa =>
    have hx := h .xIm (by simp [readsOf])
    exact sameResult_finish _ _ _ (by simp [writesOf, hx])
  | decodeFlags =>
    have hz := h .z1 (by simp [readsOf])
    simp only [commandIn, decodeFlagsRule, hz]
    exact sameResult_finish_self ..
  | fq2Sqrt =>
    have hv : fq2Of s.regs .vRe .vIm = fq2Of s'.regs .vRe .vIm :=
      fq2Of_congr (h .vRe (by simp [readsOf])) (h .vIm (by simp [readsOf]))
    have hchk := firstOutOfRange_congr c (l := sqrtChecks) fun rd hrd => h rd.1 (List.mem_map_of_mem hrd)
    simp only [commandIn, fq2SqrtRule, hv, hchk]
    split
    · exact sameResult_raise ..
    · split
      · exact sameResult_finish _ _ _ (by simp [writesOf, get_setFq2])
      · exact sameResult_finish_self ..
  | compress =>
    have hx : fq2Of s.regs .xRe .xIm = fq2Of s'.regs .xRe .xIm :=
      fq2Of_congr (h .xRe (by simp [readsOf])) (h .xIm (by simp [readsOf]))
    have hy : fq2Of s.regs .yRe .yIm = fq2Of s'.regs .yRe .yIm :=
      fq2Of_congr (h .yRe (by simp [readsOf])) (h .yIm (by simp [readsOf]))
    have hchk := firstOutOfRange_congr c (l := compressChecks) fun rd hrd => h rd.1 (List.mem_map_of_mem hrd)
    simp only [commandIn, compressRule, hx, hy, hchk]
    split
    · exact sameResult_raise ..
    · exact sameResult_finish _ _ _ (by simp [writesOf, get_setCompressed])
  | compressInf => exact sameResult_finish _ _ _ (by simp [writesOf, get_setCompressed])
  | decompress =>
    have hz1 := h .z1 (by simp [readsOf])
    have hz2 := h .z2 (by simp [readsOf])
    simp only [commandIn, decompressRule, hz1, hz2]
    split
    · exact sameResult_raise ..
    · exact sameResult_finish _ _ _ (by simp [writesOf, get_setFq2])
    · exact sameResult_finish _ _ _ (by simp [writesOf, get_setFq2])

/-- Settles O30: on equal operands a command fails at the same check, or computes the same values. -/
theorem commandsDependOnlyOnWhatTheyRead : Obligations.CommandsDependOnlyOnWhatTheyRead := by
  refine ⟨fun i r => ?_, fun i s s' h => ?_⟩
  · cases i <;> simp +contextual [readsOf, writesOf, or_imp]
  · obtain ⟨hstatus, hwritten⟩ := commandIn_sameResult Config.hardware i h
    exact ⟨_, _, exec_eq i s, exec_eq i s', hstatus, hwritten⟩

/-! ### Writes without effect (10_state.md R33, R36) -/

theorem portWrite_of_regAt_none {i : PortIndex} (h : regAt i = none) (n : Nat) (v : Word) (s : State) :
    portWrite n i v s = s := by
  simp [portWrite, h]

theorem portWrite_status (n : Nat) (v : Word) (s : State) : portWrite n 1 v s = s := rfl

theorem portWrite_cmd (n : Nat) (v : Word) (s : State) : portWrite n 0 v s = accept v n s := rfl

/-- A write that PortWrite ignores makes the cycle one without an access: rd_data shows any value in both. -/
theorem cycle_eq_quiet_of_ignored (e : Engine) {p : PortIn} (s : State) (hr : p.rst = false) (hw : p.wrEn = true)
    (hign : ∀ (n : Nat) (v : Word) (t : State), portWrite n p.addr v t = t) : cycle e p s = cycle e PortIn.quiet s := by
  have hdrive : driveRdData p s = driveRdData PortIn.quiet s := by
    rw [driveRdData_eq_draw (.inl hw), driveRdData_eq_draw (p := PortIn.quiet) (.inr rfl)]
  have hq : PortIn.quiet.rst = false := rfl
  cases hphase : s.phase with
  | idle =>
    rw [cycle_of_idle e hr hphase, cycle_of_idle e hq hphase, if_pos hw, hign, hdrive]
    rfl
  | busy cw n =>
    by_cases hn : n ≤ 1
    · rw [cycle_of_last e hr hphase hn, cycle_of_last e hq hphase hn, hdrive]
    · rw [cycle_of_busy e hr hphase (by omega), cycle_of_busy e hq hphase (by omega), hdrive]

/-- Settles O10: PortWrite ignores index 1 while Idle, and a Busy block every write. -/
theorem statusWritesAreIgnored : Obligations.StatusWritesAreIgnored := by
  intro e p s hr hw haddr
  exact cycle_eq_quiet_of_ignored e s hr hw fun n v t => haddr ▸ portWrite_status n v t

/-- Settles O11: no register stands at the index, so PortWrite ignores it too. -/
theorem reservedIndicesHoldNoState : Obligations.ReservedIndicesHoldNoState := by
  intro i hi
  have hnone : regAt i = none := (regAt_eq_none_iff i).mpr hi
  refine ⟨fun s => by simp [portRead, hnone], fun e p s hr hw haddr => ?_⟩
  exact cycle_eq_quiet_of_ignored e s hr hw (portWrite_of_regAt_none (haddr ▸ hnone))

/-! ### The effect of a step (10_state.md R38 to R41; 70_reset_and_hazards.md R191) -/

theorem Config.one_le_latency (cw : Word) (x : List Word) : 1 ≤ Config.latency cw x := Nat.le_add_right 1 _

theorem Config.latency_le_maxLatency (cw : Word) (x : List Word) : Config.latency cw x ≤ Config.maxLatency := by
  have hlt : Config.latencyChoice cw x % Config.maxLatency < Config.maxLatency := Nat.mod_lt _ (Nat.succ_pos _)
  rw [Config.latency]
  omega

theorem complete_of_ok {cw : Word} {i : Instr} (hdec : decode cw = .ok i) (s : State) :
    complete hardwareEngine cw s = exec i s := by
  rw [complete, hdec]
  rfl

theorem complete_of_error {cw : Word} {w : IllegalWord} (hdec : decode cw = .error w) (s : State) :
    complete hardwareEngine cw s = .next (raise (illegalDetail w) s) := by
  rw [complete, hdec]

/-- What a completion does to the phase, CMD and STATUS. -/
theorem complete_hardware_spec (cw : Word) (s : State) : ∃ t : State, complete hardwareEngine cw s = .next t ∧
    t.phase = .idle ∧ t.regs.get .cmd = s.regs.get .cmd ∧ StatusFits cw (t.regs.get .status) := by
  rcases complete_hardware_cases cw s with ⟨i, hdec, h⟩ | ⟨w, hdec, h⟩
  · exact ⟨_, h, commandIn_phase .., commandIn_get_cmd .., statusFits_commandIn hdec _ s⟩
  · refine ⟨_, h, raise_phase .., by simp, ?_⟩
    rw [StatusFits, hdec]
    simp

/-- The registers of a completion depend on the registers alone. -/
theorem complete_hardware_congr {cw : Word} {s s' t : State} (hregs : s.regs = s'.regs)
    (ht : complete hardwareEngine cw s = .next t) :
    ∃ t' : State, complete hardwareEngine cw s' = .next t' ∧ t.regs = t'.regs := by
  cases hdec : decode cw with
  | ok i =>
    rw [complete_of_ok hdec, exec_eq] at ht
    cases ht
    exact ⟨_, (complete_of_ok hdec s').trans (exec_eq i s'), commandIn_regs_congr _ i hregs⟩
  | error w =>
    rw [complete_of_error hdec] at ht
    cases ht
    exact ⟨_, complete_of_error hdec s', by simp [hregs]⟩

/-- The state in which the coming cycle acts: its inputs taken and rd_data driven. -/
abbrev driven (s : State) : State := driveRdData (nextInput s) (takeInput s)

/-- The host writes CMD in the coming cycle. -/
def WritesCmd (s : State) : Prop := (nextInput s).wrEn = true ∧ (nextInput s).addr = 0

/-- What a step from `s` to `t` does to the phase and the registers (10_state.md R34, R39, R40). -/
inductive StepEffect (s t : State) : Prop where
  /-- A reset cycle. -/
  | reset (hrst : (nextInput s).rst = true) (hphase : t.phase = .idle) (hregs : t.regs = Regs.reset)
  /-- An Idle block accepts the word written to CMD. -/
  | accepts (n : Nat) (hrst : (nextInput s).rst = false) (hidle : s.phase = .idle) (hwr : WritesCmd s) (hpos : 1 ≤ n)
      (hmax : n ≤ Config.maxLatency) (ht : t = accept (nextInput s).wrData n (driven s))
  /-- An Idle block with no word to accept keeps CMD and STATUS. -/
  | waits (hrst : (nextInput s).rst = false) (hidle : s.phase = .idle) (hwr : ¬ WritesCmd s) (hphase : t.phase = .idle)
      (hcmd : t.regs.get .cmd = s.regs.get .cmd) (hstatus : t.regs.get .status = s.regs.get .status)
  /-- The last cycle of a word. -/
  | completes (cw : Word) (n : Nat) (hrst : (nextInput s).rst = false) (hbusy : s.phase = .busy cw n) (hlast : n ≤ 1)
      (hrun : complete hardwareEngine cw (driven s) = .next t)
  /-- An earlier cycle of a word. -/
  | counts (cw : Word) (n : Nat) (hrst : (nextInput s).rst = false) (hbusy : s.phase = .busy cw n) (hmore : 1 < n)
      (ht : t = { driven s with phase := .busy cw (n - 1) })

theorem step_of_last {s : State} {cw : Word} {n : Nat} (hrst : (nextInput s).rst = false) (hbusy : s.phase = .busy cw n)
    (hn : n ≤ 1) : step s = complete hardwareEngine cw (driven s) :=
  cycle_of_last _ hrst hbusy hn

theorem step_of_busy {s : State} {cw : Word} {n : Nat} (hrst : (nextInput s).rst = false) (hbusy : s.phase = .busy cw n)
    (hn : 1 < n) : step s = .next { driven s with phase := .busy cw (n - 1) } :=
  cycle_of_busy _ hrst hbusy hn

/-- Acceptance, with a latency that R12 allows. -/
theorem step_of_writesCmd {s : State} (hrst : (nextInput s).rst = false) (hidle : s.phase = .idle) (hwr : WritesCmd s) :
    ∃ n : Nat, 1 ≤ n ∧ n ≤ Config.maxLatency ∧ step s = .next (accept (nextInput s).wrData n (driven s)) := by
  obtain ⟨hw, haddr⟩ := hwr
  refine ⟨Config.latency (nextInput s).wrData s.regs.toList, Config.one_le_latency .., Config.latency_le_maxLatency .., ?_⟩
  have hstep : step s = _ := cycle_of_idle hardwareEngine hrst hidle
  rw [hstep, if_pos hw, haddr, portWrite_cmd]
  rfl

/-- A write to any index but that of CMD keeps the phase, CMD and STATUS. -/
theorem portWrite_keeps {i : PortIndex} (hi : i ≠ 0) (n : Nat) (v : Word) (s : State) :
    (portWrite n i v s).phase = s.phase ∧ (portWrite n i v s).regs.get .cmd = s.regs.get .cmd ∧
      (portWrite n i v s).regs.get .status = s.regs.get .status := by
  rcases portWrite_cases n i v s with ⟨h0, -⟩ | ⟨-, h⟩ | ⟨-, h⟩ | ⟨r, hr, -, h⟩
  · exact absurd h0 hi
  · simp [h]
  · simp [h]
  · have hcmd : RegName.cmd ≠ r := by rintro rfl; cases hr
    have hstatus : RegName.status ≠ r := by rintro rfl; cases hr
    simp [h, hcmd, hstatus]

/-- An Idle cycle in which no word is accepted. -/
theorem step_of_not_writesCmd {s : State} (hrst : (nextInput s).rst = false) (hidle : s.phase = .idle)
    (hwr : ¬ WritesCmd s) : ∃ t : State, step s = .next t ∧ t.phase = .idle ∧
      t.regs.get .cmd = s.regs.get .cmd ∧ t.regs.get .status = s.regs.get .status := by
  have hstep : step s = _ := cycle_of_idle hardwareEngine hrst hidle
  by_cases hw : (nextInput s).wrEn = true
  · rw [if_pos hw] at hstep
    obtain ⟨hphase, hcmd, hstatus⟩ := portWrite_keeps (fun h => hwr ⟨hw, h⟩)
      (hardwareEngine.latency (nextInput s).wrData (takeInput s).regs) (nextInput s).wrData (driven s)
    exact ⟨_, hstep, hphase.trans (by simp [hidle]), hcmd.trans (by simp), hstatus.trans (by simp)⟩
  · rw [if_neg hw] at hstep
    exact ⟨_, hstep, by simp [hidle], by simp, by simp⟩

/-- Every step goes on, with one of the five effects. -/
theorem step_effect (s : State) : ∃ t : State, step s = .next t ∧ StepEffect s t := by
  rcases step_cases s with ⟨hrst, h⟩ | ⟨hrst, hidle, -⟩ | ⟨cw, n, hrst, hbusy, hn, h⟩ | ⟨cw, n, hrst, hbusy, hn, h⟩
  · exact ⟨_, h, .reset hrst rfl rfl⟩
  · by_cases hwr : WritesCmd s
    · obtain ⟨n, hpos, hmax, h⟩ := step_of_writesCmd hrst hidle hwr
      exact ⟨_, h, .accepts n hrst hidle hwr hpos hmax rfl⟩
    · obtain ⟨t, h, hphase, hcmd, hstatus⟩ := step_of_not_writesCmd hrst hidle hwr
      exact ⟨t, h, .waits hrst hidle hwr hphase hcmd hstatus⟩
  · obtain ⟨t, ht, -⟩ := complete_hardware_spec cw (driven s)
    exact ⟨t, h.trans ht, .completes cw n hrst hbusy hn ht⟩
  · exact ⟨_, h, .counts cw n hrst hbusy hn rfl⟩

/-! ### The invariant (10_state.md R34 to R39; 70_reset_and_hazards.md R186) -/

/-- Settles O20: each of the five effects of a step keeps the invariant. -/
theorem everyStepKeepsTheInvariant : Obligations.EveryStepKeepsTheInvariant := by
  intro s t hinv hstep
  obtain ⟨t', hstep', heffect⟩ := step_effect s
  cases hstep'.symm.trans hstep
  cases heffect with
  | reset hrst hphase hregs =>
    exact (stateInv_idle_iff hphase).mpr (.inl (by simp [hregs]))
  | accepts n hrst hidle hwr hpos hmax ht =>
    subst ht
    exact (stateInv_busy_iff rfl).mpr ⟨by simp, by simp, hpos, hmax⟩
  | waits hrst hidle hwr hphase hcmd hstatus =>
    rw [stateInv_idle_iff hphase, hcmd, hstatus]
    exact (stateInv_idle_iff hidle).mp hinv
  | completes cw n hrst hbusy hlast hrun =>
    obtain ⟨u, hu, hphase, hcmd, hfits⟩ := complete_hardware_spec cw (driven s)
    cases hu.symm.trans hrun
    obtain ⟨hcw, -⟩ := (stateInv_busy_iff hbusy).mp hinv
    refine (stateInv_idle_iff hphase).mpr (.inr ?_)
    rwa [hcmd, driveRdData_regs, takeInput_regs, hcw]
  | counts cw n hrst hbusy hmore ht =>
    subst ht
    obtain ⟨hcw, hstatus, -, hmax⟩ := (stateInv_busy_iff hbusy).mp hinv
    exact (stateInv_busy_iff rfl).mpr ⟨by simpa using hcw, by simpa using hstatus, by omega, by omega⟩

/-! ### CMD, acceptance and completion (10_state.md R34, R39 to R41) -/

/-- Settles O8: only a reset and an acceptance change CMD. -/
theorem cmdHoldsTheLastAcceptedWord : Obligations.CmdHoldsTheLastAcceptedWord := by
  refine ⟨fun s => ?_, rfl, by decide +kernel⟩
  obtain ⟨t, hstep, heffect⟩ := step_effect s
  refine ⟨t, hstep, ?_⟩
  cases heffect with
  | reset hrst hphase hregs => rw [if_pos hrst, hregs, Regs.get_reset]
  | accepts n hrst hidle hwr hpos hmax ht =>
    obtain ⟨hw, haddr⟩ := hwr
    simp [hrst, hidle, hw, haddr, ht]
  | waits hrst hidle hwr hphase hcmd hstatus =>
    rw [if_neg (by simp [hrst]), if_neg fun h => hwr h.2, hcmd]
  | completes cw n hrst hbusy hlast hrun =>
    obtain ⟨u, hu, -, hcmd, -⟩ := complete_hardware_spec cw (driven s)
    cases hu.symm.trans hrun
    simpa [hrst, hbusy] using hcmd
  | counts cw n hrst hbusy hmore ht => simp [hrst, hbusy, ht]

/-- The last cycle of an illegal word: it fails with its detail, and every register but STATUS is as before. -/
theorem step_of_illegal {s : State} {cw : Word} {w : IllegalWord} (hbusy : s.phase = .busy cw 1)
    (hrst : (nextInput s).rst = false) (hdec : decode cw = .error w) : ∃ t : State, step s = .next t ∧ t.phase = .idle ∧
      t.regs.get .status = failStat (illegalDetail w) ∧ ∀ r : RegName, r ≠ .status → t.regs.get r = s.regs.get r :=
  ⟨_, (step_of_last hrst hbusy le_rfl).trans (complete_of_error hdec _), rfl, by simp, fun r hr => by simp [hr]⟩

/-- Settles O5: the last cycle of a word is its completion. -/
theorem stepRunsTheDecodedCommand : Obligations.StepRunsTheDecodedCommand := by
  refine ⟨fun s cw i hbusy hrst hdec _ => ?_, fun s cw w hbusy hrst hdec => ?_⟩
  · rw [step_of_last hrst hbusy le_rfl, complete_of_ok hdec]
  · obtain ⟨t, hstep, hphase, hstatus, hframe⟩ := step_of_illegal hbusy hrst hdec
    refine ⟨t, hstep, hphase, ?_, hframe⟩
    cases w <;> exact hstatus.trans (by decide +kernel)

/-- Settles O7: an acceptance from Idle, a count or a completion from Busy, and the failure of an illegal word. -/
theorem acceptanceTakesTheWord : Obligations.AcceptanceTakesTheWord := by
  refine ⟨fun s cw hidle hrst hw haddr hcw => ?_, fun s cw n hbusy hrst => ?_, fun s cw w hbusy hrst hdec => ?_⟩
  · obtain ⟨n, hpos, hmax, hstep⟩ := step_of_writesCmd hrst hidle ⟨hw, haddr⟩
    rw [hcw] at hstep
    exact ⟨n, _, hstep, hpos, hmax, rfl, by simp, by simp [busyStat], fun r hc hs => by simp [hc, hs]⟩
  · by_cases hn : n ≤ 1
    · obtain ⟨t, ht, hphase, hcmd, -⟩ := complete_hardware_spec cw (driven s)
      exact ⟨t, (step_of_last hrst hbusy hn).trans ht, by simpa using hcmd, .inl hphase⟩
    · exact ⟨_, step_of_busy hrst hbusy (by omega), by simp, .inr ⟨n - 1, by omega, rfl⟩⟩
  · obtain ⟨t, hstep, hphase, hstatus, hframe⟩ := step_of_illegal hbusy hrst hdec
    exact ⟨t, hstep, hphase, by simp [hstatus], hstatus, hframe⟩

/-! ### A command runs to its completion (10_state.md R40; 70_reset_and_hazards.md R186) -/

/-- The host plans no reset. -/
def NoResetPending (s : State) : Prop := ∀ p ∈ s.pending, p.rst = false

theorem NoResetPending.nextInput_rst {s : State} (h : NoResetPending s) : (nextInput s).rst = false := by
  cases hp : s.pending with
  | nil => simp [nextInput, hp, PortIn.quiet]
  | cons p rest => simpa [nextInput, hp] using h p (by simp [hp])

theorem NoResetPending.of_pending_eq_tail {s t : State} (h : NoResetPending s) (ht : t.pending = s.pending.tail) :
    NoResetPending t :=
  fun p hp => h p (List.mem_of_mem_tail (ht ▸ hp))

theorem stepsOf_succ {s t : State} (h : step s = .next t) (k : Nat) : stepsOf (k + 1) s = stepsOf k t := by
  rw [stepsOf, h]

/-- While cycles are left, the block stays Busy with its registers, whatever the host accesses. -/
theorem stepsOf_stays_busy {cw : Word} {n : Nat} (hn : 1 ≤ n) (k : Nat) : ∀ s : State, s.phase = .busy cw (n + k) →
    NoResetPending s → ∃ m : State, stepsOf k s = .next m ∧ m.phase = .busy cw n ∧ m.regs = s.regs := by
  induction k with
  | zero => exact fun s hbusy _ => ⟨s, rfl, hbusy, rfl⟩
  | succ k ih =>
    intro s hbusy hpend
    have hstep := step_of_busy hpend.nextInput_rst hbusy (by omega)
    obtain ⟨m, hm, hphase, hregs⟩ := ih { driven s with phase := .busy cw (n + (k + 1) - 1) } rfl
      (hpend.of_pending_eq_tail (by simp))
    exact ⟨m, (stepsOf_succ hstep k).trans hm, hphase, by simpa using hregs⟩

/-- In the cycle in which its count runs out, the word completes on the registers it was accepted with. -/
theorem stepsOf_completes (cw : Word) (n : Nat) : ∀ s : State, s.phase = .busy cw (n + 1) → NoResetPending s →
    ∃ t u : State, stepsOf (n + 1) s = .next t ∧ complete hardwareEngine cw s = .next u ∧ t.phase = .idle ∧
      t.regs = u.regs := by
  induction n with
  | zero =>
    intro s hbusy hpend
    obtain ⟨t, ht, hphase, -⟩ := complete_hardware_spec cw (driven s)
    obtain ⟨u, hu, hregs⟩ := complete_hardware_congr (s' := s) (by simp) ht
    exact ⟨t, u, stepsOf_succ ((step_of_last hpend.nextInput_rst hbusy le_rfl).trans ht) 0, hu, hphase, hregs⟩
  | succ n ih =>
    intro s hbusy hpend
    have hstep := step_of_busy hpend.nextInput_rst hbusy (by omega)
    obtain ⟨t, u, ht, hu, hphase, hregs⟩ := ih { driven s with phase := .busy cw (n + 1 + 1 - 1) } rfl
      (hpend.of_pending_eq_tail (by simp))
    obtain ⟨v, hv, hregs'⟩ := complete_hardware_congr (s' := s) (by simp) hu
    exact ⟨t, v, (stepsOf_succ hstep _).trans ht, hv, hphase, hregs.trans hregs'⟩

/-- Settles O23: the accepted count runs down with the registers of acceptance, and the word completes on them. -/
theorem acceptedCommandCompletes : Obligations.AcceptedCommandCompletes := by
  intro s cw hidle hrst hw haddr hcw hpend
  obtain ⟨n, hpos, hmax, hstep⟩ := step_of_writesCmd hrst hidle ⟨hw, haddr⟩
  rw [hcw] at hstep
  have hregs : (accept cw n (driven s)).regs = (accept cw n s).regs := by simp
  have hpend' : NoResetPending (accept cw n (driven s)) := by simpa [NoResetPending] using hpend
  obtain ⟨k, rfl⟩ := Nat.exists_eq_add_of_le' hpos
  obtain ⟨t, u, ht, hu, hphase, htu⟩ := stepsOf_completes cw k _ rfl hpend'
  obtain ⟨v, hv, huv⟩ := complete_hardware_congr hregs hu
  refine ⟨k + 1, t, v, hpos, hmax, (stepsOf_succ hstep _).trans ht, hv, hphase, htu.trans huv, ?_⟩
  intro j hj hjk
  obtain ⟨i, rfl⟩ := Nat.exists_eq_add_of_le' hj
  obtain ⟨m, hm, hbusy, hmregs⟩ := stepsOf_stays_busy (cw := cw) (n := k + 1 - i) (by omega) i
    (accept cw (k + 1) (driven s)) (by rw [accept_phase, Nat.sub_add_cancel (by omega)]) hpend'
  exact ⟨m, (stepsOf_succ hstep i).trans hm, by rw [hbusy, Nat.add_sub_add_right], hmregs.trans hregs⟩

end Sys2Proof.Machine

namespace Sys2Proof.Machine

/-! ### What the port reads and writes at each index (20_memory.md R52, R54) -/

theorem RegName.ne_cmd_of_isData {r : RegName} (hr : r.isData = true) : r ≠ .cmd := by rintro rfl; cases hr

theorem RegName.ne_status_of_isData {r : RegName} (hr : r.isData = true) : r ≠ .status := by rintro rfl; cases hr

theorem portRead_cmd (s : State) : portRead s 0 = some (s.regs.get .cmd) := rfl

theorem portRead_status (s : State) : portRead s 1 = some (s.regs.get .status) := rfl

theorem portRead_reserved {i : PortIndex} (hi : 12 ≤ i.toNat) (s : State) : portRead s i = some 0 := by
  simp [portRead, (regAt_eq_none_iff i).mpr hi]

theorem portRead_index_of_idle (r : RegName) {s : State} (hidle : s.phase = .idle) :
    portRead s r.index = some (s.regs.get r) := by
  simp [portRead, hidle]

theorem portRead_data_of_busy {r : RegName} (hr : r.isData = true) {s : State} (hbusy : s.phase ≠ .idle) :
    portRead s r.index = none := by
  cases hphase : s.phase with
  | idle => exact absurd hphase hbusy
  | busy cw n => simp [portRead, hr, hphase]

theorem portWrite_data {r : RegName} (hr : r.isData = true) (n : Nat) (v : Word) (s : State) :
    portWrite n r.index v s = { s with regs := s.regs.set r v } := by
  cases r <;> cases hr <;> rfl

theorem driveRdData_of_portRead_some {p : PortIn} {s : State} {v : Word} (hr : p.rdEn = true) (hw : p.wrEn = false)
    (h : portRead s p.addr = some v) : driveRdData p s = { s with rdData := v } := by
  rw [driveRdData_read hr hw, h]

theorem driveRdData_of_portRead_none {p : PortIn} {s : State} (hr : p.rdEn = true) (hw : p.wrEn = false)
    (h : portRead s p.addr = none) : driveRdData p s = drawRdData s := by
  rw [driveRdData_read hr hw, h]

/-! ### What a cycle takes from its inputs, and what it shows (20_memory.md R51, R53) -/

/-- A Busy cycle depends on its inputs only through the driven rd_data. -/
theorem cycle_congr_of_busy (e : Engine) {p p' : PortIn} {s : State} {cw : Word} {n : Nat} (hbusy : s.phase = .busy cw n)
    (hr : p.rst = false) (hr' : p'.rst = false) (hdrive : driveRdData p s = driveRdData p' s) :
    cycle e p s = cycle e p' s := by
  by_cases hn : n ≤ 1
  · rw [cycle_of_last e hr hbusy hn, cycle_of_last e hr' hbusy hn, hdrive]
  · rw [cycle_of_busy e hr hbusy (by omega), cycle_of_busy e hr' hbusy (by omega), hdrive]

/-- With a write strobe, the read strobe does not matter. -/
theorem cycle_write_ignores_rdEn (e : Engine) {p : PortIn} (s : State) (hr : p.rst = false) (hw : p.wrEn = true) (b : Bool) :
    cycle e p s = cycle e { p with rdEn := b } s := by
  have hdrive : driveRdData p s = driveRdData { p with rdEn := b } s := by
    rw [driveRdData_eq_draw (.inl hw), driveRdData_eq_draw (p := { p with rdEn := b }) (.inl hw)]
  cases hphase : s.phase with
  | idle => rw [cycle_of_idle e hr hphase, cycle_of_idle e (p := { p with rdEn := b }) hr hphase, hdrive]
  | busy cw n => exact cycle_congr_of_busy e hphase hr hr hdrive

/-- `t` shows on rd_data what `s` shows, after as many draws. -/
def SameShown (s t : State) : Prop := t.rdData = s.rdData ∧ t.draws = s.draws

theorem portWrite_sameShown (n : Nat) (i : PortIndex) (v : Word) (s : State) : SameShown s (portWrite n i v s) := by
  rcases portWrite_cases n i v s with ⟨-, h⟩ | ⟨-, h⟩ | ⟨-, h⟩ | ⟨r, -, -, h⟩ <;> rw [h] <;> exact ⟨rfl, rfl⟩

theorem complete_hardware_sameShown (cw : Word) (s : State) :
    ∃ t : State, complete hardwareEngine cw s = .next t ∧ SameShown s t := by
  rcases complete_hardware_cases cw s with ⟨i, -, h⟩ | ⟨w, -, h⟩
  · exact ⟨_, h, commandIn_rdData .., commandIn_draws ..⟩
  · exact ⟨_, h, rfl, rfl⟩

/-- Only the drive of rd_data decides what a cycle without reset shows. -/
theorem cycle_hardware_shows {p : PortIn} (hr : p.rst = false) (s : State) :
    ∃ t : State, cycle hardwareEngine p s = .next t ∧ SameShown (driveRdData p s) t := by
  cases hphase : s.phase with
  | idle =>
    refine ⟨_, cycle_of_idle _ hr hphase, ?_⟩
    split
    · exact portWrite_sameShown ..
    · exact ⟨rfl, rfl⟩
  | busy cw n =>
    by_cases hn : n ≤ 1
    · rw [cycle_of_last _ hr hphase hn]
      exact complete_hardware_sameShown ..
    · exact ⟨_, cycle_of_busy _ hr hphase (by omega), rfl, rfl⟩

/-- Without a write and a reset, the registers and the phase after a cycle do not depend on its inputs. -/
theorem cycle_hardware_congr_of_no_write {p p' : PortIn} (s : State) (hr : p.rst = false) (hw : p.wrEn = false)
    (hr' : p'.rst = false) (hw' : p'.wrEn = false) :
    ∃ t u : State, cycle hardwareEngine p s = .next t ∧ cycle hardwareEngine p' s = .next u ∧
      t.regs = u.regs ∧ t.phase = u.phase := by
  cases hphase : s.phase with
  | idle =>
    refine ⟨_, _, cycle_of_idle _ hr hphase, cycle_of_idle _ hr' hphase, ?_⟩
    simp [hw, hw']
  | busy cw n =>
    by_cases hn : n ≤ 1
    · obtain ⟨t, ht, htphase, -⟩ := complete_hardware_spec cw (driveRdData p s)
      obtain ⟨u, hu, huphase, -⟩ := complete_hardware_spec cw (driveRdData p' s)
      obtain ⟨u', hu', hregs⟩ := complete_hardware_congr (s' := driveRdData p' s) (by simp) ht
      cases hu'.symm.trans hu
      exact ⟨t, u, (cycle_of_last _ hr hphase hn).trans ht, (cycle_of_last _ hr' hphase hn).trans hu, hregs,
        htphase.trans huphase.symm⟩
    · exact ⟨_, _, cycle_of_busy _ hr hphase (by omega), cycle_of_busy _ hr' hphase (by omega), by simp, rfl⟩

/-! ### Writes (20_memory.md R51 to R53) -/

/-- An Idle write to a data register is one register update of the driven state. -/
theorem step_of_data_write {s : State} {r : RegName} (hidle : s.phase = .idle) (hr : r.isData = true)
    (hrst : (nextInput s).rst = false) (hw : (nextInput s).wrEn = true) (haddr : (nextInput s).addr = r.index) :
    step s = .next { driven s with regs := s.regs.set r (nextInput s).wrData } := by
  have hstep : step s = _ := cycle_of_idle hardwareEngine hrst hidle
  rw [hstep, if_pos hw, haddr, portWrite_data hr, driveRdData_regs, takeInput_regs]

/-- Settles O9: the write is one register update, and an acceptance writes only CMD and STATUS. -/
theorem idleWriteSetsTheDataRegister : Obligations.IdleWriteSetsTheDataRegister := by
  intro s r hidle hr hrst hw haddr
  have hphase : (driven s).phase = .idle := by simp [hidle]
  refine ⟨_, step_of_data_write hidle hr hrst hw haddr, hphase, by simp, fun r' hne => by simp [hne], fun cw => ?_⟩
  obtain ⟨n, -, -, hstep⟩ := step_of_writesCmd
    (s := { driven s with regs := s.regs.set r (nextInput s).wrData, pending := [writeCycle .cmd cw] })
    rfl hphase ⟨rfl, rfl⟩
  exact ⟨n, _, hstep, rfl, by simp [RegName.ne_cmd_of_isData hr, RegName.ne_status_of_isData hr]⟩

/-- Settles O12: while Busy, a write only leaves rd_data undriven, as a cycle without an access does. -/
theorem busyWritesAreDropped : Obligations.BusyWritesAreDropped := by
  intro e p s cw n hbusy hr hw
  refine cycle_congr_of_busy e hbusy hr rfl ?_
  rw [driveRdData_eq_draw (.inl hw), driveRdData_eq_draw (p := PortIn.quiet) (.inr rfl)]

/-- Settles O15: the write strobe alone decides the cycle, and it leaves rd_data undriven. -/
theorem collisionPerformsTheWrite : Obligations.CollisionPerformsTheWrite := by
  intro p s hr hw _
  obtain ⟨t, ht, hdata, hdraws⟩ := cycle_hardware_shows hr s
  rw [driveRdData_eq_draw (.inl hw)] at hdata hdraws
  exact ⟨t, ht, (cycle_write_ignores_rdEn _ s hr hw false).symm.trans ht, hdata, hdraws⟩

/-! ### Reads (20_memory.md R54, R55) -/

/-- A step with the read strobe alone shows what PortRead returns at the start of the cycle, or the next draw. -/
theorem step_read_shows {s : State} (hrst : (nextInput s).rst = false) (hrd : (nextInput s).rdEn = true)
    (hw : (nextInput s).wrEn = false) : ∃ t : State, step s = .next t ∧
      (∀ v : Word, portRead s (nextInput s).addr = some v → t.rdData = v) ∧
      (portRead s (nextInput s).addr = none → t.rdData = Config.freeWord s.draws ∧ t.draws = s.draws + 1) := by
  obtain ⟨t, ht, hdata, hdraws⟩ := cycle_hardware_shows hrst (takeInput s)
  refine ⟨t, ht, fun v h => ?_, fun h => ?_⟩
  · rw [hdata, driveRdData_of_portRead_some (s := takeInput s) hrd hw h]
  · rw [hdata, hdraws, driveRdData_of_portRead_none (s := takeInput s) hrd hw h]
    exact ⟨rfl, rfl⟩

/-- Settles O13: PortRead by the index read. -/
theorem readShowsTheRegister : Obligations.ReadShowsTheRegister := by
  intro s hrst hrd hw
  obtain ⟨t, hstep, hsome, hnone⟩ := step_read_shows hrst hrd hw
  refine ⟨t, hstep, fun h => hsome _ ?_, fun h => hsome _ ?_, fun h => hsome _ (portRead_reserved h s), fun r hr h => ⟨?_, ?_⟩⟩
  · rw [h, portRead_cmd]
  · rw [h, portRead_status]
  · exact fun hidle => hsome _ (by rw [h, portRead_index_of_idle r hidle])
  · exact fun hbusy => hnone (by rw [h, portRead_data_of_busy hr hbusy])

/-- Settles O14: without a write, the inputs reach rd_data only. -/
theorem readsHaveNoSideEffect : Obligations.ReadsHaveNoSideEffect :=
  fun _ s hr hw => cycle_hardware_congr_of_no_write s hr hw rfl rfl

end Sys2Proof.Machine

namespace Sys2Proof.Machine

/-! ### What the decoder answers, by the fields of the word as numbers (30_encoding.md R70 to R75) -/

/-- The rows of R72 whose word has no operand bits: the opcode and its command. -/
def plainRows : List (Nat × Instr) :=
  [(2, .decodeFlags), (3, .fq2Sqrt), (4, .compress), (5, .compressInf), (6, .decompress)]

theorem encode_of_mem_plainRows {row : Nat × Instr} (hrow : row ∈ plainRows) : encode row.2 = BitVec.ofNat 384 row.1 := by
  revert row
  simp [plainRows, encode]

theorem two_le_of_mem_plainRows : ∀ row ∈ plainRows, 2 ≤ row.1 := by decide

/-- Every opcode is reserved, that of ENCODE_FLAGS, or that of a plain row. -/
theorem opcode_cases (opc : Nat) : (opc = 0 ∨ 7 ≤ opc) ∨ opc = 1 ∨ ∃ row ∈ plainRows, opc = row.1 := by
  simp only [plainRows, List.mem_cons, List.not_mem_nil, or_false, exists_eq_or_imp, exists_eq_left]
  omega

theorem plainWord_eq (cw : Word) (i : Instr) :
    plainWord cw i = if cw.toNat / 16 = 0 then .ok i else .error .reservedBits := by
  simp only [plainWord, rsvdField_ne_zero_iff, flagField_ne_zero_iff]
  by_cases h : cw.toNat / 16 = 0
  · rw [if_pos h, if_neg (by omega), if_neg (by omega)]
  · rw [if_neg h]
    split_ifs with hrsvd hflags
    · rfl
    · rfl
    · omega

theorem decode_of_badOpcode {cw : Word} (h : cw.toNat % 16 = 0 ∨ 7 ≤ cw.toNat % 16) : decode cw = .error .badOpcode := by
  rw [← opcField_toNat] at h
  unfold decode
  split
  case h_7 => rfl
  all_goals omega

theorem decode_of_opcode_one {cw : Word} (h : cw.toNat % 16 = 1) : decode cw =
    if cw.toNat / 128 ≠ 0 then .error .reservedBits
    else .ok (.encodeFlags (cw.getLsbD 4) (cw.getLsbD 5) (cw.getLsbD 6)) := by
  simp only [decode, opcField_toNat, h, rsvdField_ne_zero_iff]

theorem decode_of_plain_opcode {cw : Word} {row : Nat × Instr} (hrow : row ∈ plainRows) (h : cw.toNat % 16 = row.1) :
    decode cw = if cw.toNat / 16 = 0 then .ok row.2 else .error .reservedBits := by
  rw [← plainWord_eq]
  simp only [plainRows, List.mem_cons, List.not_mem_nil, or_false] at hrow
  rcases hrow with rfl | rfl | rfl | rfl | rfl <;> simp only [decode, opcField_toNat, h]

theorem decode_of_rsvd {cw : Word} (hopc : ¬ (cw.toNat % 16 = 0 ∨ 7 ≤ cw.toNat % 16)) (h : cw.toNat / 128 ≠ 0) :
    decode cw = .error .reservedBits := by
  rcases opcode_cases (cw.toNat % 16) with hbad | hone | ⟨row, hrow, hplain⟩
  · exact absurd hbad hopc
  · rw [decode_of_opcode_one hone, if_pos h]
  · rw [decode_of_plain_opcode hrow hplain, if_neg (by omega)]

theorem decode_of_operandBits {cw : Word} (hopc : ¬ (cw.toNat % 16 = 0 ∨ 7 ≤ cw.toNat % 16))
    (h : cw.toNat % 16 ≠ 1 ∧ cw.toNat / 16 % 8 ≠ 0) : decode cw = .error .reservedBits := by
  rcases opcode_cases (cw.toNat % 16) with hbad | hone | ⟨row, hrow, hplain⟩
  · exact absurd hbad hopc
  · exact absurd hone h.1
  · rw [decode_of_plain_opcode hrow hplain, if_neg (by omega)]

/-! ### Decode against encode (30_encoding.md R72, R75) -/

/-- A word with opcode 1 and RSVD = 0 is the ENCODE_FLAGS word of its own operand bits. -/
theorem eq_encode_of_opcode_one {cw : Word} (hopc : cw.toNat % 16 = 1) (hrsvd : cw.toNat / 128 = 0) :
    cw = encode (.encodeFlags (cw.getLsbD 4) (cw.getLsbD 5) (cw.getLsbD 6)) := by
  have bit (k : Nat) : (cw.getLsbD k).toNat = cw.toNat / 2 ^ k % 2 := Nat.toNat_testBit cw.toNat k
  have hsum : 0x1 + 16 * (cw.getLsbD 4).toNat + 32 * (cw.getLsbD 5).toNat + 64 * (cw.getLsbD 6).toNat = cw.toNat := by
    rw [bit, bit, bit]
    omega
  rw [encode, hsum, BitVec.ofNat_toNat, BitVec.setWidth_eq]

/-- A word that decodes to a command is the word of that command. -/
theorem eq_encode_of_decode {cw : Word} {i : Instr} (h : decode cw = .ok i) : cw = encode i := by
  rcases opcode_cases (cw.toNat % 16) with hbad | hone | ⟨row, hrow, hplain⟩
  · simp [decode_of_badOpcode hbad] at h
  · rw [decode_of_opcode_one hone] at h
    split_ifs at h with hrsvd
    cases h
    exact eq_encode_of_opcode_one hone (not_not.mp hrsvd)
  · rw [decode_of_plain_opcode hrow hplain] at h
    split_ifs at h with hhigh
    cases h
    have hval : row.1 = cw.toNat := by omega
    rw [encode_of_mem_plainRows hrow, hval, BitVec.ofNat_toNat, BitVec.setWidth_eq]

theorem decode_eq_ok_iff (cw : Word) (i : Instr) : decode cw = .ok i ↔ cw = encode i :=
  ⟨eq_encode_of_decode, fun h => h ▸ decode_encode i⟩

/-- Settles O2: `decode` inverts `encode`, and answers a command on no other word. -/
theorem decodeEncodeAgree : Obligations.DecodeEncodeAgree :=
  fun cw i _ => decode_eq_ok_iff cw i

/-! ### The row of a word (30_encoding.md R75) -/

/-- Clearing bits 6:4 changes neither OPC nor RSVD. -/
theorem fields_of_clear_operandBits (cw : Word) :
    opcField (cw &&& ~~~0x70) = opcField cw ∧ rsvdField (cw &&& ~~~0x70) = rsvdField cw := by
  have hopc : (~~~0x70 : Word).extractLsb' 0 4 = BitVec.allOnes 4 := by decide +kernel
  have hrsvd : (~~~0x70 : Word).extractLsb' 7 377 = BitVec.allOnes 377 := by decide +kernel
  simp only [opcField, rsvdField, BitVec.extractLsb'_and, hopc, hrsvd, BitVec.and_allOnes, and_self]

theorem decode_encodeFlags_iff (cw : Word) :
    (∃ c b a : Bool, decode cw = .ok (.encodeFlags c b a)) ↔ cw &&& ~~~0x70 = 0x1 := by
  constructor
  · rintro ⟨c, b, a, h⟩
    obtain ⟨-, hrow, -⟩ := Laws.TableRow.encodeFlags c b a
    rw [eq_encode_of_decode h]
    exact hrow
  · intro hmask
    obtain ⟨hopc, hrsvd⟩ := fields_of_clear_operandBits cw
    rw [hmask] at hopc hrsvd
    have hone : cw.toNat % 16 = 1 := by rw [← opcField_toNat, ← hopc]; decide +kernel
    have hzero : cw.toNat / 128 = 0 := by rw [← rsvdField_toNat, ← hrsvd]; decide +kernel
    exact ⟨_, _, _, by rw [decode_of_opcode_one hone, if_neg (not_not.mpr hzero)]⟩

/-- The operands of ENCODE_FLAGS are bits 4, 5 and 6 of its word. -/
theorem operands_of_decode {cw : Word} {c b a : Bool} (h : decode cw = .ok (.encodeFlags c b a)) :
    c = cw.getLsbD 4 ∧ b = cw.getLsbD 5 ∧ a = cw.getLsbD 6 := by
  rw [eq_encode_of_decode h]
  clear h
  revert c b a
  decide +kernel

/-- Settles O1: a command's words are those that `encode` gives. -/
theorem commandWordSelectsItsRow : Obligations.CommandWordSelectsItsRow :=
  fun cw => ⟨decode_encodeFlags_iff cw, fun _ _ _ => operands_of_decode, decode_eq_ok_iff cw .decodeFlags,
    decode_eq_ok_iff cw .fq2Sqrt, decode_eq_ok_iff cw .compress, decode_eq_ok_iff cw .compressInf,
    decode_eq_ok_iff cw .decompress⟩

/-! ### The decode at completion (30_encoding.md R73) -/

theorem complete_eq_command (e : Engine) {cw : Word} {i : Instr} (hdec : decode cw = .ok i) (s : State) :
    complete e cw s = e.command i s := by
  rw [complete, hdec]

theorem complete_eq_raise (e : Engine) {cw : Word} {w : IllegalWord} (hdec : decode cw = .error w) (s : State) :
    complete e cw s = .next (raise (illegalDetail w) s) := by
  rw [complete, hdec]

/-- Settles O3: each clause is one answer of the decoder. -/
theorem completionDecodesInOrder : Obligations.CompletionDecodesInOrder := by
  intro e cw s opc rsvd bits
  split_ifs with hbad hrsvd hbits
  · exact complete_eq_raise e (decode_of_badOpcode hbad) s
  · exact complete_eq_raise e (decode_of_rsvd hbad hrsvd) s
  · exact complete_eq_raise e (decode_of_operandBits hbad hbits) s
  · have hflags (hone : opc = 1) :
        complete e cw s = e.command (.encodeFlags (cw.getLsbD 4) (cw.getLsbD 5) (cw.getLsbD 6)) s :=
      complete_eq_command e (by rw [decode_of_opcode_one hone, if_neg hrsvd]) s
    have hplain (row : Nat × Instr) (hrow : row ∈ plainRows) (hopc : opc = row.1) :
        complete e cw s = e.command row.2 s := by
      refine complete_eq_command e ?_ s
      rw [decode_of_plain_opcode hrow hopc, if_pos]
      have htwo := two_le_of_mem_plainRows row hrow
      omega
    exact ⟨hflags, hplain (2, .decodeFlags) (by decide), hplain (3, .fq2Sqrt) (by decide),
      hplain (4, .compress) (by decide), hplain (5, .compressInf) (by decide), hplain (6, .decompress) (by decide)⟩

/-- Settles O4: six words of R72, and three that R73 refuses. -/
theorem sampleWordsDecode : Obligations.SampleWordsDecode :=
  ⟨decode_encode (.encodeFlags true false true), decode_encode .decodeFlags, decode_encode .fq2Sqrt,
    decode_encode .compress, decode_encode .compressInf, decode_encode .decompress,
    decode_of_badOpcode (by decide +kernel), decode_of_rsvd (by decide +kernel) (by decide +kernel),
    decode_of_operandBits (by decide +kernel) (by decide +kernel)⟩

/-! ### Host programs (30_encoding.md R76) -/

theorem hostStep_of_cycle {e : Engine} {prog : List HostLine} {h : HostState} {s t : State} {line : HostLine} {p : PortIn}
    (hline : prog[h.line]? = some line) (hport : lineCycle line = some p) (hcycle : cycle e p s = .next t) :
    hostStep e prog h s = .next (afterLine prog h.line t.rdData h line, t) := by
  simp only [hostStep, hline, hport, hcycle]

theorem hostStep_of_label (e : Engine) {prog : List HostLine} {h : HostState} (s : State) {l : HostLabel}
    (hline : prog[h.line]? = some (.label l)) : hostStep e prog h s = .next ({ h with line := h.line + 1 }, s) := by
  simp only [hostStep, hline, lineCycle]

/-- Counting from `pos` shifts the place of a label by `pos`. -/
theorem labelPlace_eq_add (l : HostLabel) (prog : List HostLine) (pos : Nat) :
    labelPlace l prog pos = labelPlace l prog 0 + pos := by
  induction prog generalizing pos with
  | nil => simp [labelPlace]
  | cons line rest ih =>
    by_cases hl : line = .label l
    · simp [labelPlace, hl]
    · simp only [labelPlace, hl, if_false, ih (pos + 1), ih (0 + 1)]
      omega

theorem labelPlace_cons_of_ne {l : HostLabel} {line : HostLine} (h : line ≠ .label l) (rest : List HostLine) :
    labelPlace l (line :: rest) 0 = labelPlace l rest 0 + 1 := by
  rw [labelPlace, if_neg h, labelPlace_eq_add]

/-- A label that the program holds is found at a line that holds it. -/
theorem getElem?_labelPlace {l : HostLabel} {prog : List HostLine} (h : HostLine.label l ∈ prog) :
    prog[labelPlace l prog 0]? = some (.label l) := by
  induction prog with
  | nil => cases h
  | cons line rest ih =>
    by_cases hl : line = .label l
    · simp [labelPlace, hl]
    · rw [labelPlace_cons_of_ne hl, List.getElem?_cons_succ]
      exact ih (List.mem_of_ne_of_mem (Ne.symm hl) h)

/-- Settles O25: the port cycles are `lineCycle`'s, and what follows one is `afterLine`'s. -/
theorem hostLineTakesOneCycle : Obligations.HostLineTakesOneCycle := by
  refine ⟨rfl, fun _ _ => rfl, fun _ => ⟨0, rfl⟩, fun _ _ _ => rfl, fun _ _ _ => rfl, rfl, rfl, rfl, rfl, rfl,
    ⟨_, rfl, rfl, rfl, rfl⟩, ⟨_, rfl, rfl, rfl, rfl⟩, ?takesCycle, fun e prog h s l hline => hostStep_of_label e s hline,
    fun _ _ => getElem?_labelPlace⟩
  intro e prog h s t line p hline hport hcycle
  refine ⟨_, hostStep_of_cycle hline hport hcycle, ?rd, ?brset, ?wr, ?cmd, ?rst, ?nop⟩
  case rd => rintro r rfl; exact ⟨rfl, rfl⟩
  case brset => rintro r bit l rfl; exact ⟨rfl, rfl⟩
  case wr => rintro r v rfl; rfl
  case cmd => rintro i rfl; rfl
  case rst => rintro rfl; rfl
  case nop => rintro rfl; rfl

end Sys2Proof.Machine

namespace Sys2Proof.Machine

/-! ### The flag codec as arithmetic on words (41_flag_codec.md R100 to R102, R105) -/

/-- A bit of a word as a number. -/
theorem getLsbD_toNat (w : Word) (k : Nat) : (w.getLsbD k).toNat = w.toNat / 2 ^ k % 2 :=
  Nat.toNat_testBit w.toNat k

theorem payload_lt (p : Word) : payload p < 2 ^ 381 := Nat.mod_lt _ (by positivity)

/-- The three flags and the payload have places of their own in a word, so the sum of R101 is its value. -/
theorem encodeFlags_toNat (c b a : Bool) (p : Word) : (encodeFlags c b a p).toNat =
    c.toNat * 2 ^ 383 + b.toNat * 2 ^ 382 + a.toNat * 2 ^ 381 + payload p := by
  have hp := payload_lt p
  have hc := c.toNat_le
  have hb := b.toNat_le
  have ha := a.toNat_le
  rw [encodeFlags, BitVec.toNat_ofNat]
  exact Nat.mod_eq_of_lt (by omega)

@[simp] theorem payload_encodeFlags (c b a : Bool) (p : Word) : payload (encodeFlags c b a p) = payload p := by
  have hp := payload_lt p
  rw [payload, encodeFlags_toNat]
  omega

@[simp] theorem decodeFlags_encodeFlags (c b a : Bool) (p : Word) : decodeFlags (encodeFlags c b a p) = (c, b, a) := by
  have hp := payload_lt p
  have hc := c.toNat_le
  have hb := b.toNat_le
  have ha := a.toNat_le
  have hval := encodeFlags_toNat c b a p
  have hbitC : (encodeFlags c b a p).getLsbD 383 = c := getLsbD_eq_of_toNat_div (by omega)
  have hbitB : (encodeFlags c b a p).getLsbD 382 = b := getLsbD_eq_of_toNat_div (by omega)
  have hbitA : (encodeFlags c b a p).getLsbD 381 = a := getLsbD_eq_of_toNat_div (by omega)
  rw [decodeFlags, hbitC, hbitB, hbitA]

/-- A word is its three top bits over its payload. -/
@[simp] theorem encodeFlags_decodeFlags (z : Word) :
    encodeFlags (decodeFlags z).1 (decodeFlags z).2.1 (decodeFlags z).2.2 z = z := by
  have hz := z.isLt
  apply BitVec.eq_of_toNat_eq
  simp only [encodeFlags_toNat, decodeFlags, getLsbD_toNat, payload]
  omega

theorem payload_wordOf {n : Nat} (h : n < 2 ^ 381) : payload (wordOf n) = n := by
  rw [payload, wordOf, BitVec.toNat_ofNat]
  omega

/-- The Compressor's sum (43_compressor.md R132) is the word with C set and B clear. -/
theorem encodeFlags_wordOf_toNat (a : Bool) {n : Nat} (h : n < 2 ^ 381) :
    (encodeFlags true false a (wordOf n)).toNat = n + a.toNat * 2 ^ 381 + 2 ^ 383 := by
  rw [encodeFlags_toNat, payload_wordOf h, Bool.toNat_true, Bool.toNat_false]
  omega

/-- Settles O33: the flags and the payload are read back from the places they were encoded to. -/
theorem codecLaws : Obligations.CodecLaws :=
  ⟨fun c b a p => ⟨decodeFlags_encodeFlags c b a p, payload_encodeFlags c b a p⟩, encodeFlags_decodeFlags,
    fun a _ h => (encodeFlags_wordOf_toNat a h).symm⟩

/-! ### The commands of the flag codec (41_flag_codec.md R103, R104) -/

/-- Every command completes, and changes STATUS and the registers it writes alone (10_state.md R30, R37). -/
theorem commandIn_completesAs (c : Cfg) (i : Instr) (s : State) :
    CompletesAs s (commandIn c i s) ((commandIn c i s).regs.get .status) (writesOf i) where
  idle := commandIn_phase c i s
  status := rfl
  frame := fun _ => commandIn_get_of_notMem c i s
  port := ⟨commandIn_rdData c i s, commandIn_draws c i s, commandIn_pending c i s⟩

/-- The STATUS value of a completion that names no argument. -/
@[simp] theorem stat_default : stat {} = 0x2 := by decide +kernel

/-- What ENCODE_FLAGS does to STATUS and Z1, in every configuration. -/
theorem commandIn_encodeFlags (cfg : Cfg) (c b a : Bool) (s : State) :
    (commandIn cfg (.encodeFlags c b a) s).regs.get .status = 0x2 ∧
      (commandIn cfg (.encodeFlags c b a) s).regs.get .z1 = encodeFlags c b a (s.regs.get .xIm) := by
  simp [commandIn, encodeFlagsRule]

/-- What DECODE_FLAGS does to STATUS, in every configuration. -/
theorem commandIn_decodeFlags_status (cfg : Cfg) (s : State) :
    (commandIn cfg .decodeFlags s).regs.get .status =
      stat { fc := (s.regs.get .z1).getLsbD 383, fb := (s.regs.get .z1).getLsbD 382, fa := (s.regs.get .z1).getLsbD 381 } := by
  simp [commandIn, decodeFlagsRule, decodeFlags]

theorem stat_flags_toNat (fc fb fa : Bool) : (stat { fc := fc, fb := fb, fa := fa }).toNat =
    2 + 8192 * fc.toNat + 16384 * fb.toNat + 32768 * fa.toNat := by
  rw [stat_toNat (by decide : 0 < 16) (by decide : 0 < 16)]
  simp

/-- Settles O31: the completion of every command, with the STATUS and Z1 of ENCODE_FLAGS. -/
theorem encodeFlagsResult : Obligations.EncodeFlagsResult := by
  intro c b a s
  obtain ⟨hstatus, hz1⟩ := commandIn_encodeFlags Config.hardware c b a s
  refine ⟨decode_encode (.encodeFlags c b a), _, exec_eq _ s, ?_, ?_⟩
  · exact hstatus ▸ commandIn_completesAs Config.hardware (.encodeFlags c b a) s
  · rw [hz1, encodeFlags_toNat, payload]

/-- Settles O32: the completion of every command, with the STATUS of DECODE_FLAGS. -/
theorem decodeFlagsResult : Obligations.DecodeFlagsResult := by
  refine ⟨decode_encode .decodeFlags, fun s => ?_⟩
  have hstatus := commandIn_decodeFlags_status Config.hardware s
  refine ⟨_, exec_eq _ s, ?_, ?_⟩
  · exact hstatus ▸ commandIn_completesAs Config.hardware .decodeFlags s
  · rw [hstatus, stat_flags_toNat]

end Sys2Proof.Machine

namespace Sys2Proof.Machine

variable {c : Cfg}

/-! ### Negation and zero of FQ2 in the quadratic algebra (00_scope.md R18 to R20) -/

theorem zero2_wf (hq : 0 < c.q) : zero2.wf c = true := (Fq2.wf_iff zero2).mpr ⟨hq, hq⟩

theorem sqr2_wf (hq : 0 < c.q) (u : Fq2) : (sqr2 c u).wf c = true := mul2_wf hq u u

@[simp] theorem neg2_zero2 : neg2 c zero2 = zero2 := by simp [neg2, zero2]

@[simp] theorem toQuadratic_zero2 : toQuadratic c zero2 = 0 := by
  ext <;> simp [toQuadratic, zero2]

@[simp] theorem toQuadratic_sqr2 (u : Fq2) : toQuadratic c (sqr2 c u) = toQuadratic c u ^ 2 := by
  rw [sqr2, toQuadratic_mul2, pow_two]

@[simp] theorem toQuadratic_add2 (u v : Fq2) : toQuadratic c (add2 c u v) = toQuadratic c u + toQuadratic c v := by
  ext <;> simp [toQuadratic, add2]

theorem toQuadratic_neg2 {u : Fq2} (hu : u.wf c = true) : toQuadratic c (neg2 c u) = -toQuadratic c u := by
  obtain ⟨hre, him⟩ := (Fq2.wf_iff u).mp hu
  ext
  · simp [toQuadratic, neg2, cast_fneg hre.le]
  · simp [toQuadratic, neg2, cast_fneg him.le]

theorem toQuadratic_inj {u v : Fq2} (hu : u.wf c = true) (hv : v.wf c = true) :
    toQuadratic c u = toQuadratic c v ↔ u = v :=
  ⟨toQuadratic_injOn hu hv, fun h => h ▸ rfl⟩

theorem toQuadratic_eq_zero_iff {u : Fq2} (hu : u.wf c = true) (hq : 0 < c.q) : toQuadratic c u = 0 ↔ u = zero2 := by
  rw [← toQuadratic_zero2, toQuadratic_inj hu (zero2_wf hq)]

theorem neg2_neg2 {u : Fq2} (hu : u.wf c = true) (hq : 0 < c.q) : neg2 c (neg2 c u) = u := by
  refine toQuadratic_injOn (neg2_wf hq _) hu ?_
  rw [toQuadratic_neg2 (neg2_wf hq u), toQuadratic_neg2 hu, neg_neg]

theorem sqr2_neg2 {u : Fq2} (hu : u.wf c = true) (hq : 0 < c.q) : sqr2 c (neg2 c u) = sqr2 c u := by
  refine toQuadratic_injOn (sqr2_wf hq _) (sqr2_wf hq u) ?_
  rw [toQuadratic_sqr2, toQuadratic_sqr2, toQuadratic_neg2 hu, neg_sq]

/-- The negative of a coefficient that is not 0. -/
theorem fneg_of_pos {a : Nat} (h0 : 0 < a) (hlt : a < c.q) : fneg c a = c.q - a := Nat.mod_eq_of_lt (by omega)

/-- Q is odd, so a coefficient that is its own negative is 0. -/
theorem fneg_eq_self_iff (hc : c.wf = true) {a : Nat} (ha : a < c.q) : fneg c a = a ↔ a = 0 := by
  obtain ⟨hodd, -⟩ := Cfg.wf_iff.mp hc
  constructor
  · intro h
    by_contra h0
    rw [fneg_of_pos (by omega) ha] at h
    omega
  · rintro rfl
    exact fneg_zero

theorem neg2_eq_self_iff (hc : c.wf = true) {u : Fq2} (hu : u.wf c = true) : neg2 c u = u ↔ u = zero2 := by
  obtain ⟨re, im⟩ := u
  obtain ⟨hre, him⟩ := (Fq2.wf_iff _).mp hu
  simp only [neg2, zero2, Fq2.mk.injEq, fneg_eq_self_iff hc hre, fneg_eq_self_iff hc him]

/-- BETA is no square, so the quadratic algebra has no zero divisors (00_scope.md R8, R17). -/
theorem quadratic_isDomain (hc : c.Valid) : IsDomain (QuadraticAlgebra (ZMod c.q) (c.beta : ZMod c.q) 0) := by
  have := valid_fact hc
  have : Fact (∀ r : ZMod c.q, r ^ 2 ≠ (c.beta : ZMod c.q) + 0 * r) := by
    refine ⟨fun r hr => beta_not_square hc ⟨r, ?_⟩⟩
    linear_combination -hr
  infer_instance

/-! ### The roots of an element (42_fq2_sqrt.md R110, R111) -/

/-- Two elements have the same square exactly when they are equal or negatives. -/
theorem sqr2_eq_sqr2_iff (hc : c.Valid) {u y : Fq2} (hu : u.wf c = true) (hy : y.wf c = true) :
    sqr2 c u = sqr2 c y ↔ u = y ∨ u = neg2 c y := by
  have := quadratic_isDomain hc
  have hq := hc.prime.pos
  rw [← toQuadratic_inj (sqr2_wf hq u) (sqr2_wf hq y), toQuadratic_sqr2, toQuadratic_sqr2, sq_eq_sq_iff_eq_or_eq_neg,
    ← toQuadratic_neg2 hy, toQuadratic_inj hu hy, toQuadratic_inj hu (neg2_wf hq y)]

/-- The roots of an element with root `y` are `y` and its negative. -/
theorem isRoot_iff (hc : c.Valid) {u y v : Fq2} (hy : IsRoot c y v) : IsRoot c u v ↔ u = y ∨ u = neg2 c y := by
  obtain ⟨hwf, rfl⟩ := hy
  constructor
  · rintro ⟨hu, hsq⟩
    exact (sqr2_eq_sqr2_iff hc hu hwf).mp hsq
  · rintro (rfl | rfl)
    · exact ⟨hwf, rfl⟩
    · exact ⟨neg2_wf hc.prime.pos y, sqr2_neg2 hwf hc.prime.pos⟩

theorem isRoot_zero2 (hq : 0 < c.q) : IsRoot c zero2 zero2 :=
  ⟨zero2_wf hq, toQuadratic_injOn (sqr2_wf hq _) (zero2_wf hq) (by simp)⟩

theorem isRoot_zero2_iff (hc : c.Valid) (u : Fq2) : IsRoot c u zero2 ↔ u = zero2 := by
  rw [isRoot_iff hc (isRoot_zero2 hc.prime.pos), neg2_zero2, or_self]

/-- A root of a nonzero element is nonzero. -/
theorem IsRoot.ne_zero2 {y v : Fq2} (hy : IsRoot c y v) (hq : 0 < c.q) (h0 : v ≠ zero2) : y ≠ zero2 := by
  rintro rfl
  exact h0 (hy.2.symm.trans (isRoot_zero2 hq).2)

/-- Settles O43: FQ2 has no zero divisors, and only ZERO2 is its own negative since Q is odd. -/
theorem rootsComeInPairs : Obligations.RootsComeInPairs := by
  refine fun c hc => ⟨fun v y h0 hy => ⟨?_, fun u => isRoot_iff hc hy⟩, isRoot_zero2_iff hc⟩
  intro hself
  exact hy.ne_zero2 hc.prime.pos h0 ((neg2_eq_self_iff hc.wf hy.1).mp hself.symm)

/-! ### The canonical choice (42_fq2_sqrt.md R112) -/

theorem canon_mem (u1 u2 : Fq2) : canon u1 u2 = u1 ∨ canon u1 u2 = u2 := by
  unfold canon
  split
  · exact .inl rfl
  · exact .inr rfl

/-- Neither order of two elements is preferred: one is larger, or they are equal. -/
theorem canon_comm (u1 u2 : Fq2) : canon u1 u2 = canon u2 u1 := by
  obtain ⟨re1, im1⟩ := u1
  obtain ⟨re2, im2⟩ := u2
  unfold canon
  dsimp only
  split
  · rw [if_neg (by omega)]
  · split
    · rfl
    · rw [Fq2.mk.injEq]
      omega

/-- Settles O44: the choice prefers the larger of two elements, whichever comes first. -/
theorem canonicalChoiceIsSymmetric : Obligations.CanonicalChoiceIsSymmetric :=
  ⟨fun _ _ => rfl, fun c u _ _ _ => canon_comm u (neg2 c u)⟩

/-- The canonical choice is one of the roots. -/
theorem isRoot_canon (hq : 0 < c.q) {y v : Fq2} (hy : IsRoot c y v) : IsRoot c (canon y (neg2 c y)) v := by
  obtain ⟨hwf, hsq⟩ := hy
  rcases canon_mem y (neg2 c y) with h | h <;> rw [h]
  · exact ⟨hwf, hsq⟩
  · exact ⟨neg2_wf hq y, (sqr2_neg2 hwf hq).trans hsq⟩

/-- The canonical root does not depend on the root that it is chosen from (42_fq2_sqrt.md R113). -/
theorem canon_eq_of_isRoot (hc : c.Valid) {u y v : Fq2} (hu : IsRoot c u v) (hy : IsRoot c y v) :
    canon u (neg2 c u) = canon y (neg2 c y) := by
  rcases (isRoot_iff hc hy).mp hu with rfl | rfl
  · rfl
  · rw [neg2_neg2 hy.1 hc.prime.pos, canon_comm]

/-! ### The square test and the contract (42_fq2_sqrt.md R110, R113) -/

/-- A nonzero element is a square exactly when its norm is one: the norm is multiplicative, and `someRoot` finds a
root whenever the norm is a square. -/
theorem hasRoot_iff_isResidue (hc : c.Valid) {v : Fq2} (hv : v.wf c = true) (h0 : v ≠ zero2) :
    HasRoot c v ↔ isResidue c (norm2 c v) = true := by
  have hq := hc.prime.pos
  constructor
  · rintro ⟨y, -, rfl⟩
    refine (isResidue_iff hc _).mpr ⟨cast_norm2_ne_zero hc hv h0, norm2 c y, ?_⟩
    rw [sqr2, cast_norm2 hq, cast_norm2 hq, cast_mul2_re, cast_mul2_im]
    ring
  · exact fun h => ⟨someRoot c v, someRoot_wf hc.prime.one_lt v, someRoot_spec hc hv h0 h⟩

theorem isResidue_eq_true_iff (a : Nat) : isResidue c a = true ↔ fpow c a ((c.q - 1) / 2) = 1 := decide_eq_true_iff

theorem hasRoot_zero2 (hq : 0 < c.q) : HasRoot c zero2 := ⟨zero2, isRoot_zero2 hq⟩

/-- Settles O42: Euler's criterion for the norm. -/
theorem squareTestByTheNorm : Obligations.SquareTestByTheNorm := by
  refine fun c hc => ⟨hasRoot_zero2 hc.prime.pos, fun v hv h0 => ?_⟩
  rw [hasRoot_iff_isResidue hc hv h0, isResidue_eq_true_iff]

/-- A root gives the result that the contract asks for. -/
theorem sqrtContract_canon (hc : c.Valid) {y v : Fq2} (hy : IsRoot c y v) :
    SqrtContract c v (some (canon y (neg2 c y))) :=
  ⟨⟨y, hy⟩, fun _ hu hsq => canon_eq_of_isRoot hc hy ⟨hu, hsq⟩⟩

theorem sqrtContract_zero2 (hc : c.Valid) : SqrtContract c zero2 (some zero2) := by
  have h := sqrtContract_canon hc (isRoot_zero2 hc.prime.pos)
  rwa [neg2_zero2, (canon_mem zero2 zero2).elim id id] at h

/-- The contract leaves one result. -/
theorem sqrtContract_unique {v : Fq2} {r r' : Option Fq2} (h : SqrtContract c v r) (h' : SqrtContract c v r') : r = r' := by
  match r, r' with
  | none, none => rfl
  | none, some s' => exact absurd h'.1 h
  | some s, none => exact absurd h.1 h'
  | some s, some s' =>
    obtain ⟨⟨y, hy, hsq⟩, hall⟩ := h
    rw [hall y hy hsq, h'.2 y hy hsq]

@[simp] theorem sqrtFq2_zero2 : sqrtFq2 c zero2 = some zero2 := if_pos rfl

theorem sqrtFq2_of_ne_zero2 {v : Fq2} (h0 : v ≠ zero2) : sqrtFq2 c v =
    if isResidue c (norm2 c v) then some (canon (someRoot c v) (neg2 c (someRoot c v))) else none := by
  simp [sqrtFq2, isSquare2, h0]

theorem sqrtFq2_contract (hc : c.Valid) {v : Fq2} (hv : v.wf c = true) : SqrtContract c v (sqrtFq2 c v) := by
  by_cases h0 : v = zero2
  · rw [h0, sqrtFq2_zero2]
    exact sqrtContract_zero2 hc
  · rw [sqrtFq2_of_ne_zero2 h0]
    split
    · rename_i hres
      exact sqrtContract_canon hc ⟨someRoot_wf hc.prime.one_lt v, someRoot_spec hc hv h0 hres⟩
    · rename_i hres
      exact fun hroot => hres ((hasRoot_iff_isResidue hc hv h0).mp hroot)

/-- Settles O41: `someRoot` finds a root exactly when there is one, and the canonical choice is the same from each. -/
theorem squareRootMeetsItsContract : Obligations.SquareRootMeetsItsContract := fun _ _ hc hv => sqrtFq2_contract hc hv

/-- Without a root the square root is None. -/
theorem sqrtFq2_of_not_hasRoot (hc : c.Valid) {v : Fq2} (hv : v.wf c = true) (h : ¬ HasRoot c v) : sqrtFq2 c v = none :=
  sqrtContract_unique (sqrtFq2_contract hc hv) (r' := none) h

/-- With a root the square root is the canonical one of it and its negative. -/
theorem sqrtFq2_of_isRoot (hc : c.Valid) {y v : Fq2} (hv : v.wf c = true) (hy : IsRoot c y v) :
    sqrtFq2 c v = some (canon y (neg2 c y)) :=
  sqrtContract_unique (sqrtFq2_contract hc hv) (sqrtContract_canon hc hy)

/-- What the square root finds is the canonical one of a root and its negative. -/
theorem exists_isRoot_of_sqrtFq2 (hc : c.Valid) {v r : Fq2} (hv : v.wf c = true) (h : sqrtFq2 c v = some r) :
    ∃ y : Fq2, IsRoot c y v ∧ r = canon y (neg2 c y) := by
  have hcontract := sqrtFq2_contract hc hv
  rw [h] at hcontract
  obtain ⟨⟨y, hy⟩, hall⟩ := hcontract
  exact ⟨y, hy, hall y hy.1 hy.2⟩

/-! ### The sign of the canonical root (42_fq2_sqrt.md R120, 44_decompressor.md R143) -/

/-- The elements that the canonical choice prefers to their negatives: the imaginary part, or if that is 0 the real
part, is above Q/2. -/
def UpperHalf (c : Cfg) (u : Fq2) : Prop := c.q < 2 * u.im ∨ (u.im = 0 ∧ c.q < 2 * u.re)

/-- Of a nonzero element and its negative the canonical choice is the one in the upper half. -/
theorem upperHalf_canon (hc : c.wf = true) {u : Fq2} (hu : u.wf c = true) (h0 : u ≠ zero2) :
    UpperHalf c (canon u (neg2 c u)) := by
  obtain ⟨hodd, -⟩ := Cfg.wf_iff.mp hc
  obtain ⟨re, im⟩ := u
  obtain ⟨hre, him⟩ := (Fq2.wf_iff _).mp hu
  dsimp only at hre him
  unfold UpperHalf canon neg2
  dsimp only
  rcases Nat.eq_zero_or_pos im with rfl | him0
  · have hre0 : 0 < re := Nat.pos_of_ne_zero fun h => h0 (by rw [h, zero2])
    rw [fneg_zero, fneg_of_pos hre0 hre]
    split <;> dsimp only <;> omega
  · rw [fneg_of_pos him0 him]
    split <;> dsimp only <;> omega

/-- Twice a number between Q/2 and Q holds Q once. -/
theorem two_mul_div_eq_one {q a : Nat} (h : q < 2 * a) (hlt : a < q) : 2 * a / q = 1 :=
  Nat.div_eq_of_lt_le (by omega) (by omega)

/-- The upper half has sign flag 1. -/
theorem aFlag_of_upperHalf {u : Fq2} (hu : u.wf c = true) (h : UpperHalf c u) : aFlag c u = 1 := by
  obtain ⟨hre, him⟩ := (Fq2.wf_iff u).mp hu
  unfold aFlag
  rcases h with h | ⟨him0, h⟩
  · rw [if_pos (by omega), two_mul_div_eq_one h him]
  · rw [if_neg (by omega), two_mul_div_eq_one h hre]

/-- The negatives of the upper half have sign flag 0. -/
theorem aFlag_neg2_of_upperHalf {u : Fq2} (hu : u.wf c = true) (h : UpperHalf c u) : aFlag c (neg2 c u) = 0 := by
  obtain ⟨hre, him⟩ := (Fq2.wf_iff u).mp hu
  unfold aFlag neg2
  dsimp only
  rcases h with h | ⟨him0, h⟩
  · rw [fneg_of_pos (by omega) him, if_pos (by omega), Nat.div_eq_of_lt (by omega)]
  · rw [him0, fneg_zero, if_neg (lt_irrefl 0), fneg_of_pos (by omega) hre, Nat.div_eq_of_lt (by omega)]

/-- Settles O45: the canonical root lies in the upper half. -/
theorem canonicalRootHasSignOne : Obligations.CanonicalRootHasSignOne := by
  intro c v r hc hv h0 hr
  obtain ⟨y, hy, rfl⟩ := exists_isRoot_of_sqrtFq2 hc hv hr
  have hwf := (isRoot_canon hc.prime.pos hy).1
  have hupper := upperHalf_canon hc.wf hy.1 (hy.ne_zero2 hc.prime.pos h0)
  exact ⟨aFlag_of_upperHalf hwf hupper, aFlag_neg2_of_upperHalf hwf hupper⟩

end Sys2Proof.Machine

namespace Sys2Proof.Machine

variable {c : Cfg}

/-! ### The command FQ2_SQRT (42_fq2_sqrt.md R114, R119) -/

theorem raise_completesAs (d : Detail) (s : State) : CompletesAs s (raise d s) (failStat d) [] where
  idle := rfl
  status := by simp
  frame := fun _ hr _ => Regs.get_set_of_ne _ _ hr
  port := ⟨rfl, rfl, rfl⟩

/-- A completion changes STATUS and the registers in which its register file differs. -/
theorem finish_completesAs (f : StatArgs) {x : Regs} {s : State} {changed : List RegName}
    (hx : ∀ r : RegName, r ∉ changed → x.get r = s.regs.get r) : CompletesAs s (finish f x s) (stat f) changed where
  idle := rfl
  status := by simp
  frame := fun r hr hmem => (Regs.get_set_of_ne _ _ hr).trans (hx r hmem)
  port := ⟨rfl, rfl, rfl⟩

theorem get_setFq2_of_notMem (x : Regs) {re im r : RegName} (u : Fq2) (hr : r ∉ [re, im]) :
    (setFq2 x re im u).get r = x.get r := by
  simp only [List.mem_cons, List.not_mem_nil, or_false, not_or] at hr
  obtain ⟨hre, him⟩ := hr
  rw [get_setFq2, if_neg him, if_neg hre]

@[simp] theorem failStat_opVRe : failStat .opVRe = 0x616 := by decide +kernel
@[simp] theorem failStat_opVIm : failStat .opVIm = 0x696 := by decide +kernel
@[simp] theorem stat_found : stat { found := true } = 0x1002 := by decide +kernel

/-- A reduced coefficient is the value of its word: Q is below 2^384 (00_scope.md R8). -/
theorem wordOf_toNat (hc : c.wf = true) {n : Nat} (h : n < c.q) : (wordOf n).toNat = n := by
  obtain ⟨-, -, hq, -⟩ := Cfg.wf_iff.mp hc
  rw [wordOf, BitVec.toNat_ofNat]
  exact Nat.mod_eq_of_lt (by omega)

theorem fq2Of_wf {x : Regs} {re im : RegName} (hre : natOf x re < c.q) (him : natOf x im < c.q) :
    (fq2Of x re im).wf c = true := (Fq2.wf_iff _).mpr ⟨hre, him⟩

theorem firstOutOfRange_sqrtChecks (c : Cfg) (x : Regs) : firstOutOfRange c x sqrtChecks =
    if c.q ≤ natOf x .vRe then some .opVRe else if c.q ≤ natOf x .vIm then some .opVIm else none := rfl

section Operands

variable {s : State}

theorem fq2Sqrt_of_vRe (hre : c.q ≤ natOf s.regs .vRe) : CompletesAs s (commandIn c .fq2Sqrt s) 0x616 [] := by
  have h : commandIn c .fq2Sqrt s = raise .opVRe s := by
    simp [commandIn, fq2SqrtRule, firstOutOfRange_sqrtChecks, hre]
  rw [h, ← failStat_opVRe]
  exact raise_completesAs .opVRe s

theorem fq2Sqrt_of_vIm (hre : natOf s.regs .vRe < c.q) (him : c.q ≤ natOf s.regs .vIm) :
    CompletesAs s (commandIn c .fq2Sqrt s) 0x696 [] := by
  have h : commandIn c .fq2Sqrt s = raise .opVIm s := by
    simp [commandIn, fq2SqrtRule, firstOutOfRange_sqrtChecks, hre.not_ge, him]
  rw [h, ← failStat_opVIm]
  exact raise_completesAs .opVIm s

theorem fq2Sqrt_of_none (hre : natOf s.regs .vRe < c.q) (him : natOf s.regs .vIm < c.q)
    (hroot : sqrtFq2 c (fq2Of s.regs .vRe .vIm) = none) : CompletesAs s (commandIn c .fq2Sqrt s) 0x2 [] := by
  have h : commandIn c .fq2Sqrt s = finish {} s.regs s := by
    simp [commandIn, fq2SqrtRule, firstOutOfRange_sqrtChecks, hre.not_ge, him.not_ge, hroot]
  rw [h, ← stat_default]
  exact finish_completesAs {} fun _ _ => rfl

theorem fq2Sqrt_of_some (hre : natOf s.regs .vRe < c.q) (him : natOf s.regs .vIm < c.q) {root : Fq2}
    (hroot : sqrtFq2 c (fq2Of s.regs .vRe .vIm) = some root) :
    CompletesAs s (commandIn c .fq2Sqrt s) 0x1002 [.sRe, .sIm] ∧
      (commandIn c .fq2Sqrt s).regs.get .sRe = wordOf root.re ∧ (commandIn c .fq2Sqrt s).regs.get .sIm = wordOf root.im := by
  have h : commandIn c .fq2Sqrt s = finish { found := true } (setFq2 s.regs .sRe .sIm root) s := by
    simp [commandIn, fq2SqrtRule, firstOutOfRange_sqrtChecks, hre.not_ge, him.not_ge, hroot]
  rw [h, ← stat_found]
  exact ⟨finish_completesAs _ fun _ => get_setFq2_of_notMem _ root, by simp [get_setFq2], by simp [get_setFq2]⟩

/-- The element that S then holds is the root itself. -/
theorem fq2Of_fq2Sqrt (hc : c.wf = true) (hre : natOf s.regs .vRe < c.q) (him : natOf s.regs .vIm < c.q) {root : Fq2}
    (hwf : root.wf c = true) (hroot : sqrtFq2 c (fq2Of s.regs .vRe .vIm) = some root) :
    fq2Of (commandIn c .fq2Sqrt s).regs .sRe .sIm = root := by
  obtain ⟨-, hsRe, hsIm⟩ := fq2Sqrt_of_some hre him hroot
  obtain ⟨hrootRe, hrootIm⟩ := (Fq2.wf_iff root).mp hwf
  rw [fq2Of, natOf, natOf, hsRe, hsIm, wordOf_toNat hc hrootRe, wordOf_toNat hc hrootIm]

end Operands

/-- Settles O39: a case for each check, and for each result of the square root. -/
theorem fq2SqrtResult : Obligations.Fq2SqrtResult := by
  intro s
  refine ⟨_, exec_eq .fq2Sqrt s, ?_⟩
  split
  · exact fq2Sqrt_of_vRe ‹_›
  · split
    · exact fq2Sqrt_of_vIm (by omega) ‹_›
    · split
      · exact fq2Sqrt_of_none (by omega) (by omega) ‹_›
      · exact fq2Sqrt_of_some (by omega) (by omega) ‹_›

/-- Settles O40: the square root of the block as built meets the contract, since its configuration is valid. -/
theorem fq2SqrtMeetsItsContract : Obligations.Fq2SqrtMeetsItsContract := by
  refine ⟨decode_encode .fq2Sqrt, fun s => ⟨_, exec_eq .fq2Sqrt s, fq2Sqrt_of_vRe, fq2Sqrt_of_vIm, ?_⟩⟩
  intro hre him
  have hv := fq2Of_wf hre him
  constructor
  · rintro ⟨y, hy⟩
    refine ⟨(fq2Sqrt_of_some hre him (sqrtFq2_of_isRoot hardware_valid hv hy)).1, fun u hu => ?_⟩
    exact fq2Of_fq2Sqrt hardware_valid.wf hre him (isRoot_canon hardware_valid.prime.pos hu).1
      (sqrtFq2_of_isRoot hardware_valid hv hu)
  · exact fun hroot => fq2Sqrt_of_none hre him (sqrtFq2_of_not_hasRoot hardware_valid hv hroot)

/-- Settles O46: ZERO2 is taken first, and both its coefficients are in range. -/
theorem rootOfZero : Obligations.RootOfZero := by
  refine ⟨fun c => sqrtFq2_zero2, fun s hre him => ⟨_, exec_eq .fq2Sqrt s, ?_⟩⟩
  have hre0 : natOf s.regs .vRe = 0 := by rw [natOf, hre, BitVec.ofNat_eq_ofNat, BitVec.toNat_zero]
  have him0 : natOf s.regs .vIm = 0 := by rw [natOf, him, BitVec.ofNat_eq_ofNat, BitVec.toNat_zero]
  have hroot : sqrtFq2 Config.hardware (fq2Of s.regs .vRe .vIm) = some zero2 := by
    rw [fq2Of, hre0, him0]
    exact sqrtFq2_zero2
  have hq := hardware_valid.prime.pos
  exact fq2Sqrt_of_some (hre0 ▸ hq) (him0 ▸ hq) hroot

end Sys2Proof.Machine

namespace Sys2Proof.Machine

variable {c : Cfg}

/-! ### Powers in the quadratic algebra -/

/-- The ring that `toQuadratic` reads FQ2 in. -/
abbrev Quadratic (c : Cfg) : Type := QuadraticAlgebra (ZMod c.q) (c.beta : ZMod c.q) 0

/-- Euler's criterion for the non-residue BETA. -/
theorem beta_pow_half (hc : c.Valid) : (c.beta : ZMod c.q) ^ (c.q / 2) = -1 := by
  have := valid_fact hc
  have hb := beta_not_square hc
  have hb0 : (c.beta : ZMod c.q) ≠ 0 := fun h => hb (h ▸ IsSquare.zero)
  exact (ZMod.pow_div_two_eq_neg_one_or_one c.q hb0).resolve_left fun h => hb ((ZMod.euler_criterion c.q hb0).mpr h)

open QuadraticAlgebra (omega) in
theorem omega_pow_q (hc : c.Valid) : (omega : Quadratic c) ^ c.q = -omega := by
  obtain ⟨hodd, -⟩ := Cfg.wf_iff.mp hc.wf
  calc (omega : Quadratic c) ^ c.q
    _ = (omega * omega) ^ (c.q / 2) * omega := by
      rw [← pow_two, ← pow_mul, ← pow_succ, show 2 * (c.q / 2) + 1 = c.q by omega]
    _ = algebraMap (ZMod c.q) _ ((c.beta : ZMod c.q) ^ (c.q / 2)) * omega := by
      rw [QuadraticAlgebra.omega_mul_omega_eq_algebraMap, map_zero, zero_mul, add_zero, map_pow]
    _ = -omega := by rw [beta_pow_half hc, map_neg, map_one, neg_one_mul]

section Frobenius

variable (x : Quadratic c)

theorem add_pow_q (hc : c.Valid) (y : Quadratic c) : (x + y) ^ c.q = x ^ c.q + y ^ c.q := by
  have := valid_fact hc
  have : CharP (Quadratic c) c.q := charP_of_injective_algebraMap QuadraticAlgebra.algebraMap_injective c.q
  exact add_pow_char x y c.q

/-- The Frobenius map is the conjugation. -/
theorem pow_q_eq_star (hc : c.Valid) : x ^ c.q = star x := by
  have := valid_fact hc
  obtain ⟨re, im⟩ := x
  calc (⟨re, im⟩ : Quadratic c) ^ c.q
    _ = algebraMap (ZMod c.q) _ re ^ c.q + (im • QuadraticAlgebra.omega) ^ c.q := by
      rw [QuadraticAlgebra.mk_eq_add_smul_omega, add_pow_q _ hc]
    _ = algebraMap (ZMod c.q) _ re - im • QuadraticAlgebra.omega := by
      rw [← map_pow, ZMod.pow_card, smul_pow, ZMod.pow_card, omega_pow_q hc, smul_neg, sub_eq_add_neg]
    _ = star ⟨re, im⟩ := by ext <;> simp

/-- An element to the power Q + 1 is its norm. -/
theorem pow_q_succ_eq_norm (hc : c.Valid) : x ^ (c.q + 1) = algebraMap (ZMod c.q) _ (QuadraticAlgebra.norm x) := by
  rw [QuadraticAlgebra.algebraMap_norm_eq_mul_star, pow_succ', pow_q_eq_star x hc]

/-- Half the order of FQ2's units: Q + 1 times half of Q − 1. -/
theorem fq2Order_div_two (hc : c.wf = true) : fq2Order c / 2 = (c.q + 1) * (c.q / 2) := by
  obtain ⟨hodd, -⟩ := Cfg.wf_iff.mp hc
  obtain ⟨k, hk⟩ : ∃ k, c.q = 2 * k + 1 := ⟨c.q / 2, by omega⟩
  have horder : fq2Order c = 2 * ((2 * k + 2) * k) := by
    rw [fq2Order, hk, Nat.sub_eq_of_eq_add]
    ring
  rw [horder, hk, Nat.mul_div_cancel_left _ two_pos, show (2 * k + 1) / 2 = k by omega]

theorem pow_half_order (hc : c.Valid) : x ^ (fq2Order c / 2) = algebraMap (ZMod c.q) _ (QuadraticAlgebra.norm x ^ (c.q / 2)) := by
  rw [fq2Order_div_two hc.wf, pow_mul, pow_q_succ_eq_norm x hc, map_pow]

/-- Why the reference method works (42_fq2_sqrt.md R118): for an element x of norm 1 other than −1, 1 + x to the power
(Q − 1)/2 squares to the inverse of x. -/
theorem one_add_pow_sq_mul (hc : c.Valid) (hx : x ^ (c.q + 1) = 1) (h1 : 1 + x ≠ 0) :
    ((1 + x) ^ ((c.q - 1) / 2)) ^ 2 * x = 1 := by
  have := quadratic_isDomain hc
  obtain ⟨hodd, -⟩ := Cfg.wf_iff.mp hc.wf
  refine mul_right_cancel₀ h1 ?_
  calc ((1 + x) ^ ((c.q - 1) / 2)) ^ 2 * x * (1 + x)
    _ = (1 + x) ^ c.q * x := by
      rw [mul_right_comm, ← pow_mul, ← pow_succ, show (c.q - 1) / 2 * 2 + 1 = c.q by omega]
    _ = x + x ^ (c.q + 1) := by rw [add_pow_q 1 hc, one_pow, add_mul, one_mul, ← pow_succ]
    _ = 1 * (1 + x) := by rw [hx, one_mul, add_comm]

end Frobenius

theorem norm_toQuadratic (hq : 0 < c.q) (u : Fq2) : QuadraticAlgebra.norm (toQuadratic c u) = norm2 c u := by
  rw [cast_norm2 hq, QuadraticAlgebra.norm_def, toQuadratic]
  ring

/-- Euler's criterion in FQ2, one half: a nonzero square is 1 to the power (Q² − 1)/2. -/
theorem pow_half_order_of_hasRoot (hc : c.Valid) {v : Fq2} (hv : v.wf c = true) (h0 : v ≠ zero2) (hroot : HasRoot c v) :
    toQuadratic c v ^ (fq2Order c / 2) = 1 := by
  have := valid_fact hc
  obtain ⟨hN, hsq⟩ := (isResidue_iff hc _).mp ((hasRoot_iff_isResidue hc hv h0).mp hroot)
  rw [pow_half_order _ hc, norm_toQuadratic hc.prime.pos, (ZMod.euler_criterion c.q hN).mp hsq, map_one]

/-- The other half: an element that is no square is −1 to that power. -/
theorem pow_half_order_of_not_hasRoot (hc : c.Valid) {v : Fq2} (hv : v.wf c = true) (h0 : v ≠ zero2)
    (hroot : ¬ HasRoot c v) : toQuadratic c v ^ (fq2Order c / 2) = -1 := by
  have := valid_fact hc
  have hN := cast_norm2_ne_zero hc hv h0
  have hne : (norm2 c v : ZMod c.q) ^ (c.q / 2) ≠ 1 := fun h =>
    hroot ((hasRoot_iff_isResidue hc hv h0).mpr ((isResidue_iff hc _).mpr ⟨hN, (ZMod.euler_criterion c.q hN).mpr h⟩))
  rw [pow_half_order _ hc, norm_toQuadratic hc.prime.pos,
    (ZMod.pow_div_two_eq_neg_one_or_one c.q hN).resolve_left hne, map_neg, map_one]

/-- 2 is invertible modulo the odd prime Q. -/
theorem cast_two_ne_zero (hc : c.Valid) : (2 : ZMod c.q) ≠ 0 := by
  obtain ⟨-, htwo, -⟩ := Cfg.wf_iff.mp hc.wf
  intro h
  have : 2 = 0 := eq_of_cast (c := c) htwo (by omega) (by simpa using h)
  omega

theorem quadratic_one_ne_neg_one (hc : c.Valid) : (1 : Quadratic c) ≠ -1 := by
  intro h
  have hre : (1 : ZMod c.q) = -1 := congrArg QuadraticAlgebra.re h
  exact cast_two_ne_zero hc (by linear_combination hre)

/-! ### Configurations with BETA = −1 (00_scope.md R9) -/

theorem neg_one_wf (hq : 1 < c.q) : Fq2.wf c ⟨c.q - 1, 0⟩ = true :=
  (Fq2.wf_iff _).mpr ⟨Nat.sub_lt (by omega) one_pos, Nat.lt_of_succ_lt hq⟩

theorem toQuadratic_neg_one (hq : 1 ≤ c.q) : toQuadratic c ⟨c.q - 1, 0⟩ = -1 := by
  ext
  · simp [toQuadratic, Nat.cast_sub hq, QuadraticAlgebra.re_one]
  · simp [toQuadratic, QuadraticAlgebra.im_one]

/-- An element is (Q − 1, 0) exactly when it is −1. -/
theorem eq_neg_one_iff (hq : 1 < c.q) {u : Fq2} (hu : u.wf c = true) : u = ⟨c.q - 1, 0⟩ ↔ toQuadratic c u = -1 := by
  rw [← toQuadratic_neg_one hq.le, toQuadratic_inj hu (neg_one_wf hq)]

theorem cast_beta_of_eq (hc : c.Valid) (hbeta : c.beta = c.q - 1) : (c.beta : ZMod c.q) = -1 := by
  rw [hbeta, Nat.cast_sub hc.prime.one_lt.le, Nat.cast_one, ZMod.natCast_self, zero_sub]

/-- −1 is no square modulo Q only when Q ≡ 3 (mod 4). -/
theorem q_mod_four_of_beta_eq (hc : c.Valid) (hbeta : c.beta = c.q - 1) : c.q % 4 = 3 := by
  have := valid_fact hc
  have h := beta_not_square hc
  rw [cast_beta_of_eq hc hbeta, ZMod.exists_sq_eq_neg_one_iff, not_not] at h
  exact h

theorem toQuadratic_i2_sq (hc : c.Valid) (hbeta : c.beta = c.q - 1) : toQuadratic c i2 ^ 2 = -1 := by
  rw [pow_two]
  ext
  · simp [toQuadratic, i2, cast_beta_of_eq hc hbeta, QuadraticAlgebra.re_one]
  · simp [toQuadratic, i2, QuadraticAlgebra.im_one]

end Sys2Proof.Machine

namespace Sys2Proof.Machine

variable {c : Cfg}

/-! ### The reference method (42_fq2_sqrt.md R118) -/

/-- The alpha of 42_fq2_sqrt.md R118. -/
def referenceAlpha (c : Cfg) (v : Fq2) : Fq2 := mul2 c (sqr2 c (pow2 c v ((c.q - 3) / 4))) v

/-- The root that 42_fq2_sqrt.md R118 takes for a square. -/
def referenceRoot (c : Cfg) (v : Fq2) : Fq2 :=
  if referenceAlpha c v = ⟨c.q - 1, 0⟩ then mul2 c i2 (mul2 c (pow2 c v ((c.q - 3) / 4)) v)
  else mul2 c (pow2 c (add2 c one2 (referenceAlpha c v)) ((c.q - 1) / 2)) (mul2 c (pow2 c v ((c.q - 3) / 4)) v)

@[simp] theorem sqrtReference_zero2 : sqrtReference c zero2 = some zero2 := if_pos rfl

theorem sqrtReference_of_ne_zero2 {v : Fq2} (h0 : v ≠ zero2) : sqrtReference c v =
    if mul2 c (pow2 c (referenceAlpha c v) c.q) (referenceAlpha c v) = ⟨c.q - 1, 0⟩ then none
    else some (canon (referenceRoot c v) (neg2 c (referenceRoot c v))) := if_neg h0

theorem referenceRoot_wf (hq : 0 < c.q) (v : Fq2) : (referenceRoot c v).wf c = true := by
  unfold referenceRoot
  split <;> exact mul2_wf hq _ _

/-- x0 of the rule, the element times a1, has the square alpha times the element. -/
theorem reference_x0_sq (v : Fq2) : toQuadratic c (mul2 c (pow2 c v ((c.q - 3) / 4)) v) ^ 2 =
    toQuadratic c (referenceAlpha c v) * toQuadratic c v := by
  rw [referenceAlpha, toQuadratic_mul2, toQuadratic_mul2, toQuadratic_sqr2]
  ring

section Reference

variable {v : Fq2} (h4 : c.q % 4 = 3)
include h4

theorem toQuadratic_referenceAlpha (v : Fq2) : toQuadratic c (referenceAlpha c v) = toQuadratic c v ^ (c.q / 2) := by
  rw [referenceAlpha, toQuadratic_mul2, toQuadratic_sqr2, toQuadratic_pow2, ← pow_mul, ← pow_succ]
  congr 1
  omega

/-- Alpha to the power Q + 1 is Euler's test of the element. -/
theorem referenceAlpha_pow_q_succ (hc : c.Valid) (v : Fq2) :
    toQuadratic c (referenceAlpha c v) ^ (c.q + 1) = toQuadratic c v ^ (fq2Order c / 2) := by
  rw [toQuadratic_referenceAlpha h4, ← pow_mul, fq2Order_div_two hc.wf, mul_comm]

/-- The method answers None exactly when Euler's test is −1. -/
theorem reference_test_iff (hc : c.Valid) (v : Fq2) :
    mul2 c (pow2 c (referenceAlpha c v) c.q) (referenceAlpha c v) = ⟨c.q - 1, 0⟩ ↔
      toQuadratic c v ^ (fq2Order c / 2) = -1 := by
  rw [eq_neg_one_iff hc.prime.one_lt (mul2_wf hc.prime.pos _ _), toQuadratic_mul2, toQuadratic_pow2, ← pow_succ,
    referenceAlpha_pow_q_succ h4 hc]

/-- Each branch multiplies x0 by an element whose square is the inverse of alpha: I2 when alpha is −1, and otherwise the
power of 1 + alpha. -/
theorem sqr2_referenceRoot (hc : c.Valid) (hbeta : c.beta = c.q - 1) (hv : v.wf c = true)
    (hone : toQuadratic c v ^ (fq2Order c / 2) = 1) : sqr2 c (referenceRoot c v) = v := by
  have hq := hc.prime.pos
  have halpha : (referenceAlpha c v).wf c = true := mul2_wf hq _ _
  refine toQuadratic_injOn (sqr2_wf hq _) hv ?_
  rw [toQuadratic_sqr2, referenceRoot]
  split
  · rename_i hneg
    rw [toQuadratic_mul2, mul_pow, reference_x0_sq, (eq_neg_one_iff hc.prime.one_lt halpha).mp hneg,
      toQuadratic_i2_sq hc hbeta]
    ring
  · rename_i hneg
    have hne : 1 + toQuadratic c (referenceAlpha c v) ≠ 0 := fun h =>
      hneg ((eq_neg_one_iff hc.prime.one_lt halpha).mpr (eq_neg_of_add_eq_zero_right h))
    have hkey := one_add_pow_sq_mul _ hc (by rw [referenceAlpha_pow_q_succ h4 hc, hone]) hne
    rw [toQuadratic_mul2, mul_pow, reference_x0_sq, toQuadratic_pow2, toQuadratic_add2, toQuadratic_one2, ← mul_assoc,
      hkey, one_mul]

end Reference

theorem sqrtReference_contract (hc : c.Valid) (hbeta : c.beta = c.q - 1) {v : Fq2} (hv : v.wf c = true) :
    SqrtContract c v (sqrtReference c v) := by
  have h4 := q_mod_four_of_beta_eq hc hbeta
  by_cases h0 : v = zero2
  · rw [h0, sqrtReference_zero2]
    exact sqrtContract_zero2 hc
  · rw [sqrtReference_of_ne_zero2 h0]
    by_cases hroot : HasRoot c v
    · have hone := pow_half_order_of_hasRoot hc hv h0 hroot
      rw [if_neg fun h => quadratic_one_ne_neg_one hc (hone.symm.trans ((reference_test_iff h4 hc v).mp h))]
      exact sqrtContract_canon hc ⟨referenceRoot_wf hc.prime.pos v, sqr2_referenceRoot h4 hc hbeta hv hone⟩
    · rw [if_pos ((reference_test_iff h4 hc v).mpr (pow_half_order_of_not_hasRoot hc hv h0 hroot))]
      exact hroot

/-- Settles O47: both meet the contract, which leaves one result. -/
theorem referenceMethodAgrees : Obligations.ReferenceMethodAgrees := fun _ _ hc hbeta hv =>
  sqrtContract_unique (sqrtReference_contract hc hbeta hv) (sqrtFq2_contract hc hv)

end Sys2Proof.Machine

namespace Sys2Proof.Machine

variable {c : Cfg}

/-! ### The source's algorithm for Q ≡ 3 (mod 8) (42_fq2_sqrt.md R116, R117) -/

/-- Step 2 of 42_fq2_sqrt.md R116. -/
def sourcePower (c : Cfg) (v : Fq2) : Fq2 := pow2 c v ((fq2Order c + 8) / 16)

/-- The quotient that 42_fq2_sqrt.md R116 compares with the roots of unity zeta[k]. -/
def sourceRatio (c : Cfg) (v : Fq2) : Fq2 := div2 c (sqr2 c (sourcePower c v)) v

/-- The root that 42_fq2_sqrt.md R116 takes for a match at k. -/
def sourceRoot (c : Cfg) (v : Fq2) (k : Nat) : Fq2 := div2 c (sourcePower c v) (zeta c (k / 2))

/-- The outcomes of the algorithm: no match, or a match at an even k. -/
theorem sqrtSource_cases (c : Cfg) (v : Fq2) :
    ((∀ k ∈ [0, 2, 4, 6], sourceRatio c v ≠ zeta c k) ∧ sqrtSource c v = none) ∨
    ∃ k ∈ [0, 2, 4, 6], sourceRatio c v = zeta c k ∧
      sqrtSource c v = some (canon (sourceRoot c v k) (neg2 c (sourceRoot c v k))) := by
  have hdef : sqrtSource c v = match [0, 2, 4, 6].find? (fun k => decide (sourceRatio c v = zeta c k)) with
    | none => none
    | some k => some (canon (sourceRoot c v k) (neg2 c (sourceRoot c v k))) := rfl
  cases hfind : [0, 2, 4, 6].find? (fun k => decide (sourceRatio c v = zeta c k)) with
  | none =>
    refine .inl ⟨fun k hk => ?_, by rw [hdef, hfind]⟩
    simpa using List.find?_eq_none.mp hfind k hk
  | some k =>
    refine .inr ⟨k, List.mem_of_find?_eq_some hfind, ?_, by rw [hdef, hfind]⟩
    simpa using List.find?_some hfind

/-- For Q ≡ 3 (mod 8) the order of FQ2's units is 8 modulo 16. -/
theorem fq2Order_eq_of_mod_eight (h8 : c.q % 8 = 3) : ∃ m : Nat, fq2Order c = 16 * m + 8 := by
  obtain ⟨k, hk⟩ : ∃ k, c.q = 8 * k + 3 := ⟨c.q / 8, by omega⟩
  refine ⟨4 * k ^ 2 + 3 * k, ?_⟩
  rw [fq2Order, hk, Nat.sub_eq_of_eq_add]
  ring

theorem div2_wf (hq : 0 < c.q) (u v : Fq2) : (div2 c u v).wf c = true := mul2_wf hq u (inv2 c v)

theorem toQuadratic_div2_mul (hc : c.Valid) {u v : Fq2} (hu : u.wf c = true) (hv : v.wf c = true) (h0 : v ≠ zero2) :
    toQuadratic c (div2 c u v) * toQuadratic c v = toQuadratic c u := by
  rw [← toQuadratic_mul2, mul2_div2_cancel hc hu hv h0]

theorem one_one_wf (hq : 1 < c.q) : Fq2.wf c ⟨1, 1⟩ = true := (Fq2.wf_iff _).mpr ⟨hq, hq⟩

/-- 1 + i is no square for Q ≡ 3 (mod 8): its norm is 2, a non-residue. -/
theorem not_hasRoot_one_one (hc : c.Valid) (hbeta : c.beta = c.q - 1) (h8 : c.q % 8 = 3) : ¬ HasRoot c ⟨1, 1⟩ := by
  have := valid_fact hc
  have hnorm : (norm2 c ⟨1, 1⟩ : ZMod c.q) = 2 := by
    rw [cast_norm2 hc.prime.pos, cast_beta_of_eq hc hbeta]
    norm_num
  rw [hasRoot_iff_isResidue hc (one_one_wf hc.prime.one_lt) (by decide), isResidue_iff hc, hnorm,
    ZMod.exists_sq_eq_two_iff (by omega)]
  omega

/-- The even powers of a primitive eighth root of unity are the fourth roots of 1. -/
theorem exists_eq_pow_of_pow_four {R : Type} [CommRing R] [IsDomain R] {r z : R} (hz : z ^ 4 = -1) (hr : r ^ 4 = 1) :
    ∃ k ∈ [0, 2, 4, 6], r = z ^ k := by
  have hprod : ((r - 1) * (r + 1)) * ((r - z ^ 2) * (r + z ^ 2)) = 0 := by linear_combination hr + (1 - r ^ 2) * hz
  rcases mul_eq_zero.mp hprod with h | h <;> rcases mul_eq_zero.mp h with h | h
  · exact ⟨0, by simp, by linear_combination h⟩
  · exact ⟨4, by simp, by linear_combination h - hz⟩
  · exact ⟨2, by simp, by linear_combination h⟩
  · exact ⟨6, by simp, by linear_combination h - z ^ 2 * hz⟩

theorem zeta_wf (hq : 1 < c.q) (k : Nat) : (zeta c k).wf c = true := pow2_wf hq _ _

theorem sourcePower_wf (hq : 1 < c.q) (v : Fq2) : (sourcePower c v).wf c = true := pow2_wf hq v _

/-- The ratio times the element is the square of step 2's power. -/
theorem sourceRatio_mul (hc : c.Valid) {v : Fq2} (hv : v.wf c = true) (h0 : v ≠ zero2) :
    toQuadratic c (sourceRatio c v) * toQuadratic c v = toQuadratic c (sourcePower c v) ^ 2 := by
  rw [sourceRatio, toQuadratic_div2_mul hc (sqr2_wf hc.prime.pos _) hv h0, toQuadratic_sqr2]

section Source

variable (hc : c.Valid) (hbeta : c.beta = c.q - 1) (h8 : c.q % 8 = 3)
include h8

/-- zeta[k] is the k-th power of zeta[1]. -/
theorem toQuadratic_zeta (k : Nat) : toQuadratic c (zeta c k) = toQuadratic c (zeta c 1) ^ k := by
  obtain ⟨m, hm⟩ := fq2Order_eq_of_mod_eight h8
  rw [zeta, zeta, toQuadratic_pow2, toQuadratic_pow2, ← pow_mul]
  congr 1
  rw [hm, show (16 * m + 8) * k = 8 * ((2 * m + 1) * k) by ring, Nat.mul_div_cancel_left _ (by norm_num)]
  congr 1
  omega

include hc

/-- To the fourth power the ratio is Euler's test of the element. -/
theorem sourceRatio_pow_four {v : Fq2} (hv : v.wf c = true) (h0 : v ≠ zero2) :
    toQuadratic c (sourceRatio c v) ^ 4 = toQuadratic c v ^ (fq2Order c / 2) := by
  have := quadratic_isDomain hc
  obtain ⟨m, hm⟩ := fq2Order_eq_of_mod_eight h8
  have hx : toQuadratic c v ^ 4 ≠ 0 := pow_ne_zero 4 fun h => h0 ((toQuadratic_eq_zero_iff hv hc.prime.pos).mp h)
  refine mul_right_cancel₀ hx ?_
  rw [← mul_pow, sourceRatio_mul hc hv h0, sourcePower, toQuadratic_pow2, ← pow_mul, ← pow_mul, ← pow_add]
  congr 1
  omega

include hbeta

/-- zeta[1] is a primitive eighth root of unity, since 1 + i is no square. -/
theorem zeta_one_pow_four : toQuadratic c (zeta c 1) ^ 4 = -1 := by
  obtain ⟨m, hm⟩ := fq2Order_eq_of_mod_eight h8
  rw [← pow_half_order_of_not_hasRoot hc (one_one_wf hc.prime.one_lt) (by decide) (not_hasRoot_one_one hc hbeta h8), zeta,
    toQuadratic_pow2, ← pow_mul]
  congr 1
  omega

theorem toQuadratic_zeta_ne_zero (k : Nat) : toQuadratic c (zeta c k) ≠ 0 := by
  have := quadratic_isDomain hc
  rw [toQuadratic_zeta h8]
  refine pow_ne_zero k fun hz => ?_
  have hunit := zeta_one_pow_four hc hbeta h8
  rw [hz, zero_pow (by norm_num)] at hunit
  exact neg_ne_zero.mpr one_ne_zero hunit.symm

theorem zeta_ne_zero2 (k : Nat) : zeta c k ≠ zero2 := fun h =>
  toQuadratic_zeta_ne_zero hc hbeta h8 k (by rw [h, toQuadratic_zero2])

/-- A match at an even k gives a root. -/
theorem isRoot_sourceRoot {v : Fq2} (hv : v.wf c = true) (h0 : v ≠ zero2) {k : Nat} (heven : 2 * (k / 2) = k)
    (hmatch : sourceRatio c v = zeta c k) : IsRoot c (sourceRoot c v k) v := by
  have := quadratic_isDomain hc
  have hq := hc.prime.one_lt
  refine ⟨div2_wf hc.prime.pos _ _, toQuadratic_injOn (sqr2_wf hc.prime.pos _) hv ?_⟩
  have hroot : toQuadratic c (sourceRoot c v k) * toQuadratic c (zeta c (k / 2)) = toQuadratic c (sourcePower c v) :=
    toQuadratic_div2_mul hc (sourcePower_wf hq v) (zeta_wf hq _) (zeta_ne_zero2 hc hbeta h8 _)
  have hsq : toQuadratic c (zeta c (k / 2)) ^ 2 = toQuadratic c (zeta c k) := by
    rw [toQuadratic_zeta h8, toQuadratic_zeta h8 k, ← pow_mul, mul_comm, heven]
  refine mul_right_cancel₀ (toQuadratic_zeta_ne_zero hc hbeta h8 k) ?_
  calc toQuadratic c (sqr2 c (sourceRoot c v k)) * toQuadratic c (zeta c k)
    _ = toQuadratic c (sourcePower c v) ^ 2 := by rw [toQuadratic_sqr2, ← hsq, ← mul_pow, hroot]
    _ = toQuadratic c v * toQuadratic c (zeta c k) := by rw [← sourceRatio_mul hc hv h0, hmatch, mul_comm]

/-- The ratio of a square is a match. -/
theorem exists_match_of_hasRoot {v : Fq2} (hv : v.wf c = true) (h0 : v ≠ zero2) (hroot : HasRoot c v) :
    ∃ k ∈ [0, 2, 4, 6], sourceRatio c v = zeta c k := by
  have := quadratic_isDomain hc
  have hone := (sourceRatio_pow_four hc h8 hv h0).trans (pow_half_order_of_hasRoot hc hv h0 hroot)
  obtain ⟨k, hk, hpow⟩ := exists_eq_pow_of_pow_four (zeta_one_pow_four hc hbeta h8) hone
  refine ⟨k, hk, toQuadratic_injOn (div2_wf hc.prime.pos _ _) (zeta_wf hc.prime.one_lt k) ?_⟩
  rw [hpow, toQuadratic_zeta h8 k]

theorem sqrtSource_contract {v : Fq2} (hv : v.wf c = true) (h0 : v ≠ zero2) : SqrtContract c v (sqrtSource c v) := by
  rcases sqrtSource_cases c v with ⟨hnone, h⟩ | ⟨k, hk, hmatch, h⟩ <;> rw [h]
  · intro hroot
    obtain ⟨k, hk, hmatch⟩ := exists_match_of_hasRoot hc hbeta h8 hv h0 hroot
    exact hnone k hk hmatch
  · have heven : ∀ k ∈ [0, 2, 4, 6], 2 * (k / 2) = k := by decide
    exact sqrtContract_canon hc (isRoot_sourceRoot hc hbeta h8 hv h0 (heven k hk) hmatch)

end Source

/-- Settles O48: both meet the contract, which leaves one result. -/
theorem sourceAlgorithmAgreesForThreeModEight : Obligations.SourceAlgorithmAgreesForThreeModEight :=
  fun _ _ hc hbeta h8 hv h0 => sqrtContract_unique (sqrtSource_contract hc hbeta h8 hv h0) (sqrtFq2_contract hc hv)

end Sys2Proof.Machine

namespace Sys2Proof.Machine

variable {c c' : Cfg}

/-! ### The sign flag (43_compressor.md R130, R131) -/

/-- The coefficient that the sign flag tests: the imaginary part, or if that is 0 the real part (R130). -/
def testedCoeff (y : Fq2) : Nat := if 0 < y.im then y.im else y.re

theorem testedCoeff_of_im_pos {y : Fq2} (h : 0 < y.im) : testedCoeff y = y.im := if_pos h

@[simp] theorem testedCoeff_real (a : Nat) : testedCoeff ⟨a, 0⟩ = a := if_neg (lt_irrefl 0)

theorem testedCoeff_lt {y : Fq2} (hy : y.wf c = true) : testedCoeff y < c.q := by
  obtain ⟨hre, him⟩ := (Fq2.wf_iff y).mp hy
  unfold testedCoeff
  split
  · exact him
  · exact hre

theorem aFlag_eq_div (c : Cfg) (y : Fq2) : aFlag c y = 2 * testedCoeff y / c.q := by
  unfold aFlag testedCoeff
  split <;> rfl

/-- A coefficient in the lower half gives the flag 0. -/
theorem aFlag_eq_zero (hc : c.wf = true) {y : Fq2} (h : testedCoeff y < (c.q + 1) / 2) : aFlag c y = 0 := by
  obtain ⟨hodd, -⟩ := Cfg.wf_iff.mp hc
  rw [aFlag_eq_div, Nat.div_eq_of_lt (by omega)]

/-- A coefficient in the upper half gives the flag 1: Q is odd, so twice it exceeds Q. -/
theorem aFlag_eq_one (hc : c.wf = true) {y : Fq2} (hlt : testedCoeff y < c.q) (h : (c.q + 1) / 2 ≤ testedCoeff y) :
    aFlag c y = 1 := by
  obtain ⟨hodd, -⟩ := Cfg.wf_iff.mp hc
  rw [aFlag_eq_div, two_mul_div_eq_one (by omega) hlt]

/-- The two values of the flag, by the half in which the tested coefficient lies. -/
theorem aFlag_cases (hc : c.wf = true) {y : Fq2} (hy : y.wf c = true) :
    (testedCoeff y < (c.q + 1) / 2 ∧ aFlag c y = 0) ∨ ((c.q + 1) / 2 ≤ testedCoeff y ∧ aFlag c y = 1) :=
  (Nat.lt_or_ge _ _).imp (fun h => ⟨h, aFlag_eq_zero hc h⟩) fun h => ⟨h, aFlag_eq_one hc (testedCoeff_lt hy) h⟩

/-- Negation keeps which coefficient is tested and mirrors it. -/
theorem testedCoeff_neg2 {y : Fq2} (hy : y.wf c = true) (h0 : y ≠ zero2) :
    testedCoeff (neg2 c y) = c.q - testedCoeff y := by
  obtain ⟨re, im⟩ := y
  obtain ⟨hre, him⟩ := (Fq2.wf_iff _).mp hy
  dsimp only at hre him
  rcases Nat.eq_zero_or_pos im with rfl | him0
  · have hre0 : 0 < re := Nat.pos_of_ne_zero fun h => h0 (by rw [h, zero2])
    rw [neg2, fneg_zero, testedCoeff_real, testedCoeff_real, fneg_of_pos hre0 hre]
  · have hneg : (neg2 c ⟨re, im⟩).im = c.q - im := fneg_of_pos him0 him
    have hpos : 0 < (neg2 c ⟨re, im⟩).im := by omega
    rw [testedCoeff_of_im_pos hpos, testedCoeff_of_im_pos (y := ⟨re, im⟩) him0, hneg]

theorem aFlag_neg2 (hc : c.wf = true) {y : Fq2} (hy : y.wf c = true) (h0 : y ≠ zero2) :
    aFlag c (neg2 c y) = 1 - aFlag c y := by
  obtain ⟨hodd, htwo, -⟩ := Cfg.wf_iff.mp hc
  have hlt := testedCoeff_lt hy
  have hneg := testedCoeff_neg2 hy h0
  rcases aFlag_cases hc hy with ⟨hhalf, h⟩ | ⟨hhalf, h⟩
  · rw [h, aFlag_eq_one hc (testedCoeff_lt (neg2_wf (by omega) y)) (by omega)]
  · rw [h, aFlag_eq_zero hc (by omega)]

/-- Settles O34: the flag says in which half of the field the tested coefficient lies. -/
theorem signFlagLaws : Obligations.SignFlagLaws := by
  intro c hc
  obtain ⟨hodd, htwo, -⟩ := Cfg.wf_iff.mp hc
  refine ⟨fun y hy => ⟨(aFlag_cases hc hy).imp And.right And.right, ?_, aFlag_neg2 hc hy⟩, ?_⟩
  · change aFlag c y = 1 ↔ (c.q + 1) / 2 ≤ testedCoeff y
    rcases aFlag_cases hc hy with ⟨hhalf, h⟩ | ⟨hhalf, h⟩ <;> omega
  · have hzero : testedCoeff zero2 = 0 := testedCoeff_real 0
    have hreLow := testedCoeff_real ((c.q - 1) / 2)
    have hreHigh := testedCoeff_real ((c.q + 1) / 2)
    have himLow : testedCoeff ⟨0, (c.q - 1) / 2⟩ = (c.q - 1) / 2 := testedCoeff_of_im_pos (by dsimp only; omega)
    have himHigh : testedCoeff ⟨0, (c.q + 1) / 2⟩ = (c.q + 1) / 2 := testedCoeff_of_im_pos (by dsimp only; omega)
    have himOne : testedCoeff ⟨c.q - 1, 1⟩ = 1 := testedCoeff_of_im_pos one_pos
    exact ⟨aFlag_eq_zero hc (by omega), aFlag_eq_zero hc (by omega), aFlag_eq_one hc (by omega) (by omega),
      aFlag_eq_zero hc (by omega), aFlag_eq_one hc (by omega) (by omega), aFlag_eq_zero hc (by omega)⟩

/-! ### COMPRESS and COMPRESS_INF (43_compressor.md R132 to R135) -/

@[simp] theorem failStat_opXRe : failStat .opXRe = 0x416 := by decide +kernel
@[simp] theorem failStat_opXIm : failStat .opXIm = 0x496 := by decide +kernel
@[simp] theorem failStat_opYRe : failStat .opYRe = 0x516 := by decide +kernel
@[simp] theorem failStat_opYIm : failStat .opYIm = 0x596 := by decide +kernel

theorem firstOutOfRange_compressChecks (c : Cfg) (x : Regs) : firstOutOfRange c x compressChecks =
    if c.q ≤ natOf x .xRe then some .opXRe else if c.q ≤ natOf x .xIm then some .opXIm
    else if c.q ≤ natOf x .yRe then some .opYRe else if c.q ≤ natOf x .yIm then some .opYIm else none := rfl

@[simp] theorem wordOf_toNat_self (w : Word) : wordOf w.toNat = w := by
  rw [wordOf, BitVec.ofNat_toNat, BitVec.setWidth_eq]

/-- A completion that writes a compressed form: STATUS, the frame, and the two registers. -/
theorem finish_setCompressed (z : Nat × Nat) (s : State) :
    CompletesAs s (finish {} (setCompressed s.regs z) s) 0x2 [.z1, .z2] ∧
      (finish {} (setCompressed s.regs z) s).regs.get .z1 = wordOf z.1 ∧
      (finish {} (setCompressed s.regs z) s).regs.get .z2 = wordOf z.2 := by
  refine ⟨?_, by simp [get_setCompressed], by simp [get_setCompressed]⟩
  rw [← stat_default]
  refine finish_completesAs {} fun r hr => ?_
  simp only [List.mem_cons, List.not_mem_nil, or_false, not_or] at hr
  obtain ⟨hz1, hz2⟩ := hr
  rw [get_setCompressed, if_neg hz2, if_neg hz1]

/-- The point whose compressed form COMPRESS writes (R132). -/
def operandPoint (x : Regs) : Point := .affine (fq2Of x .xRe .xIm) (fq2Of x .yRe .yIm)

section Operands

variable {s : State}

/-- COMPRESS with an operand that is no field element (R133). -/
theorem compress_of_outOfRange {d : Detail} (h : firstOutOfRange c s.regs compressChecks = some d) :
    CompletesAs s (commandIn c .compress s) (failStat d) [] := by
  have hraise : commandIn c .compress s = raise d s := by simp [commandIn, compressRule, h]
  rw [hraise]
  exact raise_completesAs d s

/-- COMPRESS of field elements (R132). -/
theorem compress_of_inRange (h : firstOutOfRange c s.regs compressChecks = none) :
    CompletesAs s (commandIn c .compress s) 0x2 [.z1, .z2] ∧
      (commandIn c .compress s).regs.get .z1 = wordOf (compressPoint c (operandPoint s.regs)).1 ∧
      (commandIn c .compress s).regs.get .z2 = wordOf (compressPoint c (operandPoint s.regs)).2 := by
  have hfinish : commandIn c .compress s = finish {} (setCompressed s.regs (compressPoint c (operandPoint s.regs))) s := by
    simp [commandIn, compressRule, h, operandPoint]
  rw [hfinish]
  exact finish_setCompressed _ s

end Operands

/-- COMPRESS_INF, in every configuration (R134). -/
theorem compressInf_result (c : Cfg) (s : State) :
    CompletesAs s (commandIn c .compressInf s) 0x2 [.z1, .z2] ∧
      (commandIn c .compressInf s).regs.get .z1 = wordOf (2 ^ 383 + 2 ^ 382) ∧
      (commandIn c .compressInf s).regs.get .z2 = wordOf 0 :=
  finish_setCompressed (2 ^ 383 + 2 ^ 382, 0) s

/-- Settles O37: the completion with the constant form. -/
theorem compressInfResult : Obligations.CompressInfResult := by
  refine ⟨decode_encode .compressInf, fun s => ?_⟩
  obtain ⟨hcompletes, hz1, hz2⟩ := compressInf_result Config.hardware s
  refine ⟨_, exec_eq .compressInf s, hcompletes, ?_, ?_⟩
  · rw [natOf, hz1]
    decide +kernel
  · rw [natOf, hz2]
    decide +kernel

/-- Settles O36: the checks of R133 one after the other. -/
theorem compressRangeErrors : Obligations.CompressRangeErrors := by
  intro s
  refine ⟨_, exec_eq .compress s, fun hxRe => ?_, fun hxRe hxIm => ?_, fun hxRe hxIm hyRe => ?_,
    fun hxRe hxIm hyRe hyIm => ?_⟩
  · rw [← failStat_opXRe]
    exact compress_of_outOfRange (by rw [firstOutOfRange_compressChecks, if_pos hxRe])
  · rw [← failStat_opXIm]
    exact compress_of_outOfRange (by rw [firstOutOfRange_compressChecks, if_neg hxRe.not_ge, if_pos hxIm])
  · rw [← failStat_opYRe]
    exact compress_of_outOfRange (by
      rw [firstOutOfRange_compressChecks, if_neg hxRe.not_ge, if_neg hxIm.not_ge, if_pos hyRe])
  · rw [← failStat_opYIm]
    exact compress_of_outOfRange (by
      rw [firstOutOfRange_compressChecks, if_neg hxRe.not_ge, if_neg hxIm.not_ge, if_neg hyRe.not_ge, if_pos hyIm])

/-- The flag of a reduced element is one bit. -/
theorem exists_bit_eq_aFlag (hc : c.wf = true) {y : Fq2} (hy : y.wf c = true) : ∃ a : Bool, a.toNat = aFlag c y := by
  rcases aFlag_cases hc hy with ⟨-, h⟩ | ⟨-, h⟩
  · exact ⟨false, h.symm⟩
  · exact ⟨true, h.symm⟩

/-- R132's sum for Z1 is the word with C set, B clear, and the sign flag as A: X_IM, below Q, fits the payload. -/
theorem wordOf_compressPoint (hc : c.wf = true) {x y : Fq2} (hx : x.wf c = true) {a : Bool} (ha : a.toNat = aFlag c y) :
    wordOf (compressPoint c (.affine x y)).1 = encodeFlags true false a (wordOf x.im) := by
  obtain ⟨-, -, hq, -⟩ := Cfg.wf_iff.mp hc
  obtain ⟨-, him⟩ := (Fq2.wf_iff x).mp hx
  rw [compressPoint, ← ha, ← encodeFlags_wordOf_toNat a (him.trans hq)]
  exact wordOf_toNat_self _

/-- Settles O35: Z1 is the codec's word of X_IM under the sign flag of Y. -/
theorem compressResult : Obligations.CompressResult := by
  intro s hxRe hxIm hyRe hyIm
  have hc := hardware_valid.wf
  have hx : (fq2Of s.regs .xRe .xIm).wf Config.hardware = true := fq2Of_wf hxRe hxIm
  obtain ⟨a, ha⟩ := exists_bit_eq_aFlag hc (fq2Of_wf hyRe hyIm)
  have hchecks : firstOutOfRange Config.hardware s.regs compressChecks = none := by
    rw [firstOutOfRange_compressChecks, if_neg hxRe.not_ge, if_neg hxIm.not_ge, if_neg hyRe.not_ge, if_neg hyIm.not_ge]
  obtain ⟨hcompletes, hz1, hz2⟩ := compress_of_inRange hchecks
  rw [operandPoint, wordOf_compressPoint hc hx ha] at hz1
  obtain ⟨-, -, hq, -⟩ := Cfg.wf_iff.mp hc
  refine ⟨_, a, exec_eq .compress s, hcompletes, ha, ?_, ?_, ?_⟩
  · rw [natOf, hz1]
    exact encodeFlags_wordOf_toNat a (hxIm.trans hq)
  · exact hz1.trans (congrArg _ (wordOf_toNat_self _))
  · exact hz2.trans (wordOf_toNat_self _)

/-! ### What compression depends on (43_compressor.md R135) -/

theorem firstOutOfRange_eq_of_q_eq (hq : c.q = c'.q) (x : Regs) (l : List (RegName × Detail)) :
    firstOutOfRange c x l = firstOutOfRange c' x l := by
  induction l with
  | nil => rfl
  | cons rd rest ih => rw [firstOutOfRange, firstOutOfRange, hq, ih]

theorem compressPoint_eq_of_q_eq (hq : c.q = c'.q) (p : Point) : compressPoint c p = compressPoint c' p := by
  cases p with
  | affine x y => rw [compressPoint, compressPoint, aFlag_eq_div, aFlag_eq_div, hq]
  | infinity => rfl

/-- BETA and B2 play no part in COMPRESS. -/
theorem compress_eq_of_q_eq (hq : c.q = c'.q) (s : State) : commandIn c .compress s = commandIn c' .compress s := by
  simp only [commandIn, compressRule, firstOutOfRange_eq_of_q_eq hq, compressPoint_eq_of_q_eq hq]

/-- Equal operands give equal results: the failure of one check, which keeps Z1 and Z2, or one compressed form. -/
theorem compress_congr (c : Cfg) {s s' : State} (h : ∀ r ∈ readsOf .compress, s.regs.get r = s'.regs.get r) :
    (commandIn c .compress s).regs.get .status = (commandIn c .compress s').regs.get .status ∧
    ∀ r ∈ writesOf .compress,
      if statErr ((commandIn c .compress s).regs.get .status) = true then
        (commandIn c .compress s).regs.get r = s.regs.get r ∧ (commandIn c .compress s').regs.get r = s'.regs.get r
      else (commandIn c .compress s).regs.get r = (commandIn c .compress s').regs.get r := by
  have hchk := firstOutOfRange_congr c (l := compressChecks) fun rd hrd => h rd.1 (List.mem_map_of_mem hrd)
  cases hs : firstOutOfRange c s.regs compressChecks with
  | some d =>
    have ht := compress_of_outOfRange hs
    have ht' := compress_of_outOfRange (hchk ▸ hs)
    rw [ht.status, ht'.status]
    refine ⟨rfl, fun r hr => ?_⟩
    rw [if_pos (statErr_failStat d)]
    have hne := ne_status_of_mem_writesOf hr
    exact ⟨ht.frame r hne List.not_mem_nil, ht'.frame r hne List.not_mem_nil⟩
  | none =>
    obtain ⟨ht, hz1, hz2⟩ := compress_of_inRange hs
    obtain ⟨ht', hz1', hz2'⟩ := compress_of_inRange (hchk ▸ hs)
    have hpoint : operandPoint s.regs = operandPoint s'.regs := by
      rw [operandPoint, operandPoint, fq2Of_congr (h .xRe (by simp [readsOf])) (h .xIm (by simp [readsOf])),
        fq2Of_congr (h .yRe (by simp [readsOf])) (h .yIm (by simp [readsOf]))]
    have herr : statErr 0x2 = false := by decide +kernel
    rw [ht.status, ht'.status, herr]
    simp [writesOf, hz1, hz2, hz1', hz2', hpoint]

/-- Both commands write Z1, Z2 and STATUS alone. -/
theorem compression_completesAs (c : Cfg) (s : State) : ∀ i ∈ [Instr.compress, Instr.compressInf],
    CompletesAs s (commandIn c i s) ((commandIn c i s).regs.get .status) [.z1, .z2] := by
  intro i hi
  have hwrites : ∀ i ∈ [Instr.compress, Instr.compressInf], writesOf i = [.z1, .z2] := by decide
  exact hwrites i hi ▸ commandIn_completesAs c i s

/-- Settles O38: the frame of every command, and the dependence of COMPRESS on Q and its operands. -/
theorem compressionIsPure : Obligations.CompressionIsPure := by
  refine ⟨fun i hi s => ⟨_, _, exec_eq i s, compression_completesAs _ s i hi⟩,
    fun c i hi s => ⟨_, compression_completesAs c s i hi⟩,
    fun c c' s hq => ⟨compress_eq_of_q_eq hq s, rfl⟩, fun c c' s s' hq h => ?_, fun c c' s s' => ?_⟩
  · rw [← compress_eq_of_q_eq hq s']
    exact compress_congr c h
  · obtain ⟨ht, hz1, hz2⟩ := compressInf_result c s
    obtain ⟨ht', hz1', hz2'⟩ := compressInf_result c' s'
    intro r hr
    simp only [List.mem_cons, List.not_mem_nil, or_false] at hr
    rcases hr with rfl | rfl | rfl
    · exact hz1.trans hz1'.symm
    · exact hz2.trans hz2'.symm
    · exact ht.status.trans ht'.status.symm

end Sys2Proof.Machine

namespace Sys2Proof.Machine

variable {c : Cfg}

/-! ### The curve equation, and the root with the sign that is asked for (44_decompressor.md R140 steps 6 to 9) -/

theorem eq_zero2_iff (u : Fq2) : u = zero2 ↔ u.re = 0 ∧ u.im = 0 := by
  cases u
  simp [zero2]

theorem curveRhs_wf (hq : 0 < c.q) (px : Fq2) : (curveRhs c px).wf c = true := add2_wf hq _ _

/-- The points of the curve over `px` are the roots of x³ + B2. -/
theorem onCurve_iff_isRoot (px : Fq2) {py : Fq2} (hy : py.wf c = true) :
    onCurve c px py = true ↔ IsRoot c py (curveRhs c px) := by
  rw [onCurve, decide_eq_true_iff, IsRoot, curveRhs, and_iff_right hy]

/-- The canonical one of a root `y` and its negative, negated when its sign flag is not `a` (R140 step 7). -/
def signedRoot (c : Cfg) (a : Bool) (y : Fq2) : Fq2 :=
  if aFlag c (canon y (neg2 c y)) ≠ a.toNat then neg2 c (canon y (neg2 c y)) else canon y (neg2 c y)

theorem isRoot_neg2 (hq : 0 < c.q) {y v : Fq2} (hy : IsRoot c y v) : IsRoot c (neg2 c y) v := by
  obtain ⟨hwf, hsq⟩ := hy
  exact ⟨neg2_wf hq y, (sqr2_neg2 hwf hq).trans hsq⟩

theorem isRoot_signedRoot (hq : 0 < c.q) (a : Bool) {y v : Fq2} (hy : IsRoot c y v) : IsRoot c (signedRoot c a y) v := by
  have hcanon := isRoot_canon hq hy
  unfold signedRoot
  split
  · exact isRoot_neg2 hq hcanon
  · exact hcanon

/-- The two roots of a nonzero element differ in their sign flag, so the correction gives the flag asked for. -/
theorem aFlag_signedRoot (hc : c.wf = true) (a : Bool) {y v : Fq2} (hy : IsRoot c y v) (h0 : v ≠ zero2) :
    aFlag c (signedRoot c a y) = a.toNat := by
  have hq : 0 < c.q := Nat.lt_of_succ_lt (Cfg.one_lt_q hc)
  have hcanon := isRoot_canon hq hy
  have hneg := aFlag_neg2 hc hcanon.1 (hcanon.ne_zero2 hq h0)
  have hbit := a.toNat_le
  unfold signedRoot
  split
  · rcases aFlag_cases hc hcanon.1 with ⟨-, h⟩ | ⟨-, h⟩ <;> omega
  · exact not_not.mp ‹_›

/-- A root comes back when the sign asked for is its own (43_compressor.md R130, 44_decompressor.md R143). -/
theorem signedRoot_of_aFlag (hc : c.wf = true) {a : Bool} {y : Fq2} (hy : y.wf c = true) (ha : a.toNat = aFlag c y) :
    signedRoot c a y = y := by
  have hq : 0 < c.q := Nat.lt_of_succ_lt (Cfg.one_lt_q hc)
  rw [signedRoot, ha]
  rcases canon_mem y (neg2 c y) with h | h <;> rw [h]
  · exact if_neg (not_not.mpr rfl)
  · rw [neg2_neg2 hy hq]
    by_cases h0 : y = zero2
    · rw [h0, neg2_zero2, ite_self]
    · refine if_pos ?_
      rw [aFlag_neg2 hc hy h0]
      omega

/-! ### Steps 4 to 9 of R140: a finite point -/

section FinitePoint

variable {xIm xRe : Nat}

theorem decompressFinite_of_xIm (a : Bool) (xRe : Nat) (him : c.q ≤ xIm) : decompressFinite c a xIm xRe = .error .xImRange :=
  if_pos him

theorem decompressFinite_of_xRe (a : Bool) (him : xIm < c.q) (hre : c.q ≤ xRe) :
    decompressFinite c a xIm xRe = .error .xReRange := by
  rw [decompressFinite, if_neg him.not_ge, if_pos hre]

theorem decompressFinite_of_not_hasRoot (hc : c.Valid) (a : Bool) (him : xIm < c.q) (hre : xRe < c.q)
    (h : ¬ HasRoot c (curveRhs c ⟨xRe, xIm⟩)) : decompressFinite c a xIm xRe = .error .noRoot := by
  have hroot := sqrtFq2_of_not_hasRoot hc (curveRhs_wf hc.prime.pos _) h
  rw [curveRhs] at hroot
  simp only [decompressFinite, if_neg him.not_ge, if_neg hre.not_ge, hroot]

/-- The curve check of step 8 passes, since the corrected root is a root (R142). -/
theorem decompressFinite_of_isRoot (hc : c.Valid) (a : Bool) (him : xIm < c.q) (hre : xRe < c.q) {y : Fq2}
    (hy : IsRoot c y (curveRhs c ⟨xRe, xIm⟩)) :
    decompressFinite c a xIm xRe = .ok (.affine ⟨xRe, xIm⟩ (signedRoot c a y)) := by
  have hroot := sqrtFq2_of_isRoot hc (curveRhs_wf hc.prime.pos _) hy
  have hsigned := isRoot_signedRoot hc.prime.pos a hy
  have hcurve := (onCurve_iff_isRoot _ hsigned.1).mpr hsigned
  rw [curveRhs] at hroot
  rw [signedRoot] at hcurve ⊢
  simp only [decompressFinite, if_neg him.not_ge, if_neg hre.not_ge, hroot, hcurve, if_true]

/-- The outcomes for a finite point, each at the first check that fails. -/
theorem decompressFinite_cases (hc : c.Valid) (a : Bool) (xIm xRe : Nat) :
    (∃ d ∈ [Detail.xImRange, .xReRange, .noRoot], decompressFinite c a xIm xRe = .error d) ∨
    (xIm < c.q ∧ xRe < c.q ∧ ∃ y : Fq2, IsRoot c y (curveRhs c ⟨xRe, xIm⟩) ∧
      decompressFinite c a xIm xRe = .ok (.affine ⟨xRe, xIm⟩ (signedRoot c a y))) := by
  rcases Nat.lt_or_ge xIm c.q with him | him
  · rcases Nat.lt_or_ge xRe c.q with hre | hre
    · by_cases h : HasRoot c (curveRhs c ⟨xRe, xIm⟩)
      · obtain ⟨y, hy⟩ := h
        exact .inr ⟨him, hre, y, hy, decompressFinite_of_isRoot hc a him hre hy⟩
      · exact .inl ⟨_, by simp, decompressFinite_of_not_hasRoot hc a him hre h⟩
    · exact .inl ⟨_, by simp, decompressFinite_of_xRe a him hre⟩
  · exact .inl ⟨_, by simp, decompressFinite_of_xIm a xRe him⟩

end FinitePoint

/-! ### Steps 1 to 3 of R140: the flags of a compressed form -/

theorem word_eq_zero_iff (w : Word) : w = 0 ↔ w.toNat = 0 := by
  rw [← BitVec.toNat_inj, BitVec.ofNat_eq_ofNat, BitVec.toNat_zero]

theorem isInfinityForm_eq (z1 z2 : Word) : isInfinityForm z1 z2 = decide (payload z1 = 0 ∧ z2.toNat = 0) := by
  simp only [isInfinityForm, ← Bool.decide_and, word_eq_zero_iff]

theorem isInfinityForm_eq_true_iff {z1 z2 : Word} : isInfinityForm z1 z2 = true ↔ payload z1 = 0 ∧ z2.toNat = 0 := by
  rw [isInfinityForm_eq, decide_eq_true_iff]

/-- The flag checks in their order, for a word with its flags written out (R140 steps 1 to 3). -/
theorem decompressPoint_encodeFlags (c : Cfg) (fc fb fa : Bool) (p z2 : Word) :
    decompressPoint c (encodeFlags fc fb fa p) z2 =
      if fc = false then .error .cFlagClear
      else if fb ≠ isInfinityForm p z2 then .error .bFlagMismatch
      else if isInfinityForm p z2 then if fa then .error .aFlagOnInfinity else .ok .infinity
      else decompressFinite c fa (payload p) z2.toNat := by
  have hform : isInfinityForm (encodeFlags fc fb fa p) z2 = isInfinityForm p z2 := by
    rw [isInfinityForm, isInfinityForm, payload_encodeFlags]
  rw [decompressPoint, hform, decodeFlags_encodeFlags, payload_encodeFlags]

/-- The same checks read from the bits of Z1. -/
theorem decompressPoint_eq (c : Cfg) (z1 z2 : Word) :
    decompressPoint c z1 z2 =
      if z1.getLsbD 383 = false then .error .cFlagClear
      else if z1.getLsbD 382 ≠ decide (payload z1 = 0 ∧ z2.toNat = 0) then .error .bFlagMismatch
      else if payload z1 = 0 ∧ z2.toNat = 0 then if z1.getLsbD 381 then .error .aFlagOnInfinity else .ok .infinity
      else decompressFinite c (z1.getLsbD 381) (payload z1) z2.toNat := by
  rw [decompressPoint, isInfinityForm_eq, decodeFlags]
  simp only [decide_eq_true_eq]

end Sys2Proof.Machine

namespace Sys2Proof.Machine

variable {c : Cfg}

/-- Z1 of the point at infinity is the word with C and B set over a zero payload (43_compressor.md R134). -/
theorem encodeFlags_infinity_toNat {p : Word} (hp : payload p = 0) :
    (encodeFlags true true false p).toNat = 2 ^ 383 + 2 ^ 382 := by
  rw [encodeFlags_toNat, hp, Bool.toNat_true, Bool.toNat_false]
  omega

/-- The outcomes of the flag checks: a malformed form, the form of the point at infinity, or one of a finite point. -/
theorem decompressPoint_cases (c : Cfg) (z1 z2 : Word) :
    (∃ d ∈ [Detail.cFlagClear, .bFlagMismatch, .aFlagOnInfinity], decompressPoint c z1 z2 = .error d) ∨
    (z1.toNat = 2 ^ 383 + 2 ^ 382 ∧ z2.toNat = 0 ∧ decompressPoint c z1 z2 = .ok .infinity) ∨
    (∃ a : Bool, z1 = encodeFlags true false a z1 ∧
      decompressPoint c z1 z2 = decompressFinite c a (payload z1) z2.toNat) := by
  obtain ⟨fc, fb, fa, hz1⟩ : ∃ fc fb fa : Bool, z1 = encodeFlags fc fb fa z1 :=
    ⟨_, _, _, (encodeFlags_decodeFlags z1).symm⟩
  have heq := decompressPoint_encodeFlags c fc fb fa z1 z2
  rw [← hz1] at heq
  cases fc with
  | false => exact .inl ⟨.cFlagClear, by simp, heq⟩
  | true =>
    by_cases hfb : fb = isInfinityForm z1 z2
    · rw [if_neg (by simp), if_neg (not_not.mpr hfb)] at heq
      by_cases hinf : isInfinityForm z1 z2 = true
      · rw [if_pos hinf] at heq
        cases fa with
        | true => exact .inl ⟨.aFlagOnInfinity, by simp, heq⟩
        | false =>
          obtain ⟨hpayload, hz2⟩ := isInfinityForm_eq_true_iff.mp hinf
          refine .inr (.inl ⟨?_, hz2, heq⟩)
          rw [hz1, hfb, hinf, encodeFlags_infinity_toNat hpayload]
      · rw [if_neg hinf] at heq
        rw [hfb, Bool.eq_false_iff.mpr hinf] at hz1
        exact .inr (.inr ⟨fa, hz1, heq⟩)
    · rw [if_neg (by simp), if_pos hfb] at heq
      exact .inl ⟨.bFlagMismatch, by simp, heq⟩

/-- The outcomes of the whole validation in a valid configuration; NOT_ON_CURVE is none of them. -/
theorem decompressPoint_valid_cases (hc : c.Valid) (z1 z2 : Word) :
    (∃ d : Detail, d ≠ .notOnCurve ∧ decompressPoint c z1 z2 = .error d) ∨
    (z1.toNat = 2 ^ 383 + 2 ^ 382 ∧ z2.toNat = 0 ∧ decompressPoint c z1 z2 = .ok .infinity) ∨
    (∃ (a : Bool) (y : Fq2), z1 = encodeFlags true false a z1 ∧ payload z1 < c.q ∧ z2.toNat < c.q ∧
      IsRoot c y (curveRhs c ⟨z2.toNat, payload z1⟩) ∧
      decompressPoint c z1 z2 = .ok (.affine ⟨z2.toNat, payload z1⟩ (signedRoot c a y))) := by
  rcases decompressPoint_cases c z1 z2 with ⟨d, hd, h⟩ | h | ⟨a, hz1, h⟩
  · exact .inl ⟨d, by rintro rfl; simp at hd, h⟩
  · exact .inr (.inl h)
  · rcases decompressFinite_cases hc a (payload z1) z2.toNat with ⟨d, hd, h'⟩ | ⟨him, hre, y, hy, h'⟩
    · exact .inl ⟨d, by rintro rfl; simp at hd, h.trans h'⟩
    · exact .inr (.inr ⟨a, y, hz1, him, hre, hy, h.trans h'⟩)

/-- The pair of COMPRESS_INF is the form of the point at infinity (R145). -/
theorem decompressPoint_infinity (c : Cfg) {z1 z2 : Word} (hz1 : z1.toNat = 2 ^ 383 + 2 ^ 382) (hz2 : z2.toNat = 0) :
    decompressPoint c z1 z2 = .ok .infinity := by
  have hzero : payload 0 = 0 := by rw [payload, (word_eq_zero_iff 0).mp rfl, Nat.zero_mod]
  obtain rfl : z1 = encodeFlags true true false 0 :=
    BitVec.eq_of_toNat_eq (hz1.trans (encodeFlags_infinity_toNat hzero).symm)
  rw [decompressPoint_encodeFlags, isInfinityForm_eq_true_iff.mpr ⟨hzero, hz2⟩]
  rfl

/-- The pair of COMPRESS_INF is the only form of the point at infinity (R145). -/
theorem toNat_of_decompressPoint_infinity (hc : c.Valid) {z1 z2 : Word} (h : decompressPoint c z1 z2 = .ok .infinity) :
    z1.toNat = 2 ^ 383 + 2 ^ 382 ∧ z2.toNat = 0 := by
  rcases decompressPoint_valid_cases hc z1 z2 with ⟨d, -, h'⟩ | ⟨hz1, hz2, -⟩ | ⟨a, y, -, -, -, -, h'⟩
  · exact absurd (h.symm.trans h') (by simp)
  · exact ⟨hz1, hz2⟩
  · exact absurd (h.symm.trans h') (by simp)

/-- The compressed form of a curve point with x ≠ ZERO2 is read back as the point (R144). -/
theorem decompressPoint_compressPoint (hc : c.Valid) {x y : Fq2} (hx : x.wf c = true) (hy : y.wf c = true)
    (hcurve : onCurve c x y = true) (h0 : x ≠ zero2) :
    decompressPoint c (wordOf (compressPoint c (.affine x y)).1) (wordOf (compressPoint c (.affine x y)).2) =
      .ok (.affine x y) := by
  obtain ⟨-, -, hq, -⟩ := Cfg.wf_iff.mp hc.wf
  obtain ⟨hre, him⟩ := (Fq2.wf_iff x).mp hx
  obtain ⟨a, ha⟩ := exists_bit_eq_aFlag hc.wf hy
  have hpayload : payload (wordOf x.im) = x.im := payload_wordOf (him.trans hq)
  have hz2 : (wordOf x.re).toNat = x.re := wordOf_toNat hc.wf hre
  have hform : isInfinityForm (wordOf x.im) (wordOf x.re) = false := by
    rw [isInfinityForm_eq, hpayload, hz2, decide_eq_false_iff_not]
    rintro ⟨him0, hre0⟩
    exact h0 ((eq_zero2_iff x).mpr ⟨hre0, him0⟩)
  have hfinite := decompressFinite_of_isRoot hc a him hre ((onCurve_iff_isRoot x hy).mp hcurve)
  rw [signedRoot_of_aFlag hc.wf hy ha] at hfinite
  rw [wordOf_compressPoint hc.wf hx ha, compressPoint, decompressPoint_encodeFlags, hform, hpayload, hz2, hfinite]
  simp

/-- An accepted finite point has reduced coordinates. -/
theorem decompressPoint_wf (hc : c.Valid) {z1 z2 : Word} {px py : Fq2} (h : decompressPoint c z1 z2 = .ok (.affine px py)) :
    px.wf c = true ∧ py.wf c = true := by
  rcases decompressPoint_valid_cases hc z1 z2 with ⟨d, -, h'⟩ | ⟨-, -, h'⟩ | ⟨a, y, -, him, hre, hy, h'⟩
  · exact absurd (h.symm.trans h') (by simp)
  · exact absurd (h.symm.trans h') (by simp)
  · obtain ⟨rfl, rfl⟩ := Point.affine.inj (Except.ok.inj (h.symm.trans h'))
    exact ⟨(Fq2.wf_iff _).mpr ⟨hre, him⟩, (isRoot_signedRoot hc.prime.pos a hy).1⟩

/-- Without a curve point of y = ZERO2, an accepted form is the compressed form of its point (R146). -/
theorem compressPoint_decompressPoint (hc : c.Valid) (hcorner : ∀ x : Fq2, x.wf c = true → curveRhs c x ≠ zero2)
    {z1 z2 : Word} {p : Point} (h : decompressPoint c z1 z2 = .ok p) : compressPoint c p = (z1.toNat, z2.toNat) := by
  rcases decompressPoint_valid_cases hc z1 z2 with ⟨d, -, h'⟩ | ⟨hz1, hz2, h'⟩ | ⟨a, y, hz1, him, hre, hy, h'⟩
  · exact absurd (h.symm.trans h') (by simp)
  · obtain rfl : Point.infinity = p := Except.ok.inj (h'.symm.trans h)
    rw [compressPoint, hz1, hz2]
  · obtain rfl : Point.affine ⟨z2.toNat, payload z1⟩ (signedRoot c a y) = p := Except.ok.inj (h'.symm.trans h)
    have hflag := aFlag_signedRoot hc.wf a hy (hcorner _ ((Fq2.wf_iff _).mpr ⟨hre, him⟩))
    have hval := encodeFlags_toNat true false a z1
    rw [← hz1, Bool.toNat_true, Bool.toNat_false] at hval
    rw [compressPoint, hflag, Prod.mk.injEq]
    exact ⟨by dsimp only; omega, rfl⟩

/-! ### The command DECOMPRESS (R140) -/

@[simp] theorem failStat_cFlagClear : failStat .cFlagClear = 0x8e := by decide +kernel
@[simp] theorem failStat_bFlagMismatch : failStat .bFlagMismatch = 0x10e := by decide +kernel
@[simp] theorem failStat_aFlagOnInfinity : failStat .aFlagOnInfinity = 0x18e := by decide +kernel
@[simp] theorem failStat_xImRange : failStat .xImRange = 0x216 := by decide +kernel
@[simp] theorem failStat_xReRange : failStat .xReRange = 0x296 := by decide +kernel
@[simp] theorem failStat_noRoot : failStat .noRoot = 0x31e := by decide +kernel
@[simp] theorem stat_inf : stat { inf := true } = 0x802 := by decide +kernel

@[simp] theorem statInf_failStat (d : Detail) : statInf (failStat d) = false := by
  obtain ⟨-, -, -, -, -, hinf, -⟩ :=
    stat_fields (f := { err := true, ecode := d.kind.code, edet := d.code }) d.kind.code_lt d.code_lt
  exact hinf

@[simp] theorem statEdetail_failStat (d : Detail) : statEdetail (failStat d) = d.code := by
  obtain ⟨-, -, -, -, hedet, -⟩ :=
    stat_fields (f := { err := true, ecode := d.kind.code, edet := d.code }) d.kind.code_lt d.code_lt
  exact hedet

/-- EDETAIL tells NOT_ON_CURVE from the other failures (60_exceptions.md R162). -/
theorem eq_notOnCurve_of_failStat_eq {d : Detail} (h : failStat d = failStat .notOnCurve) : d = .notOnCurve := by
  have hcode : d.code = Detail.code .notOnCurve := by rw [← statEdetail_failStat, h, statEdetail_failStat]
  revert hcode
  cases d <;> decide

theorem forall_mem_coordinates {P : RegName → Prop} (hxRe : P .xRe) (hxIm : P .xIm) (hyRe : P .yRe) (hyIm : P .yIm) :
    ∀ r ∈ [RegName.xRe, .xIm, .yRe, .yIm], P r := by
  simp [*]

/-- A completion that writes X and Y: STATUS, the frame, and the four registers. -/
theorem finish_setPoint (f : StatArgs) (px py : Fq2) (s : State) :
    let t := finish f (setFq2 (setFq2 s.regs .xRe .xIm px) .yRe .yIm py) s
    CompletesAs s t (stat f) [.xRe, .xIm, .yRe, .yIm] ∧ t.regs.get .xRe = wordOf px.re ∧ t.regs.get .xIm = wordOf px.im ∧
      t.regs.get .yRe = wordOf py.re ∧ t.regs.get .yIm = wordOf py.im := by
  refine ⟨finish_completesAs f fun r hr => ?_, by simp [get_setFq2], by simp [get_setFq2], by simp [get_setFq2],
    by simp [get_setFq2]⟩
  have hX : r ∉ [RegName.xRe, .xIm] := fun h => hr (List.mem_append_left [RegName.yRe, .yIm] h)
  have hY : r ∉ [RegName.yRe, .yIm] := fun h => hr (List.mem_append_right [RegName.xRe, .xIm] h)
  rw [get_setFq2_of_notMem _ py hY, get_setFq2_of_notMem _ px hX]

section Command

variable {s : State}

theorem decompress_of_error {d : Detail} (h : decompressPoint c (s.regs.get .z1) (s.regs.get .z2) = .error d) :
    CompletesAs s (commandIn c .decompress s) (failStat d) [] := by
  have hraise : commandIn c .decompress s = raise d s := by simp [commandIn, decompressRule, h]
  rw [hraise]
  exact raise_completesAs d s

theorem decompress_of_affine (hc : c.wf = true) {px py : Fq2} (hx : px.wf c = true) (hy : py.wf c = true)
    (h : decompressPoint c (s.regs.get .z1) (s.regs.get .z2) = .ok (.affine px py)) :
    CompletesAs s (commandIn c .decompress s) 0x2 [.xRe, .xIm, .yRe, .yIm] ∧
      fq2Of (commandIn c .decompress s).regs .xRe .xIm = px ∧ fq2Of (commandIn c .decompress s).regs .yRe .yIm = py := by
  have hfinish : commandIn c .decompress s = finish {} (setFq2 (setFq2 s.regs .xRe .xIm px) .yRe .yIm py) s := by
    simp [commandIn, decompressRule, h]
  obtain ⟨hcompletes, hxRe, hxIm, hyRe, hyIm⟩ := finish_setPoint {} px py s
  obtain ⟨hpxRe, hpxIm⟩ := (Fq2.wf_iff px).mp hx
  obtain ⟨hpyRe, hpyIm⟩ := (Fq2.wf_iff py).mp hy
  rw [hfinish, ← stat_default]
  refine ⟨hcompletes, ?_, ?_⟩
  · rw [fq2Of, natOf, natOf, hxRe, hxIm, wordOf_toNat hc hpxRe, wordOf_toNat hc hpxIm]
  · rw [fq2Of, natOf, natOf, hyRe, hyIm, wordOf_toNat hc hpyRe, wordOf_toNat hc hpyIm]

/-- DECOMPRESS of a finite form whose x³ + B2 has the root `y` (R140 steps 6 to 9). -/
theorem decompress_of_isRoot (hc : c.Valid) {a : Bool} {xIm xRe : Nat}
    (h : decompressPoint c (s.regs.get .z1) (s.regs.get .z2) = decompressFinite c a xIm xRe) (him : xIm < c.q)
    (hre : xRe < c.q) {y : Fq2} (hy : IsRoot c y (curveRhs c ⟨xRe, xIm⟩)) :
    CompletesAs s (commandIn c .decompress s) 0x2 [.xRe, .xIm, .yRe, .yIm] ∧
      fq2Of (commandIn c .decompress s).regs .xRe .xIm = ⟨xRe, xIm⟩ ∧
      fq2Of (commandIn c .decompress s).regs .yRe .yIm = signedRoot c a y ∧
      onCurve c (fq2Of (commandIn c .decompress s).regs .xRe .xIm) (fq2Of (commandIn c .decompress s).regs .yRe .yIm) =
        true := by
  have hsigned := isRoot_signedRoot hc.prime.pos a hy
  obtain ⟨hcompletes, hX, hY⟩ := decompress_of_affine hc.wf ((Fq2.wf_iff _).mpr ⟨hre, him⟩) hsigned.1
    (h.trans (decompressFinite_of_isRoot hc a him hre hy))
  refine ⟨hcompletes, hX, hY, ?_⟩
  rw [hX, hY]
  exact (onCurve_iff_isRoot _ hsigned.1).mpr hsigned

theorem decompress_of_infinity (h : decompressPoint c (s.regs.get .z1) (s.regs.get .z2) = .ok .infinity) :
    CompletesAs s (commandIn c .decompress s) 0x802 [.xRe, .xIm, .yRe, .yIm] ∧
      ∀ r ∈ [RegName.xRe, .xIm, .yRe, .yIm], (commandIn c .decompress s).regs.get r = 0 := by
  have hfinish : commandIn c .decompress s =
      finish { inf := true } (setFq2 (setFq2 s.regs .xRe .xIm zero2) .yRe .yIm zero2) s := by
    simp [commandIn, decompressRule, h]
  obtain ⟨hcompletes, hxRe, hxIm, hyRe, hyIm⟩ := finish_setPoint { inf := true } zero2 zero2 s
  rw [hfinish, ← stat_inf]
  exact ⟨hcompletes, forall_mem_coordinates hxRe hxIm hyRe hyIm⟩

/-- STATUS tells the three kinds of outcome apart. -/
theorem decompress_status_cases (c : Cfg) (s : State) :
    (∃ d : Detail, decompressPoint c (s.regs.get .z1) (s.regs.get .z2) = .error d ∧
      (commandIn c .decompress s).regs.get .status = failStat d) ∨
    (∃ px py : Fq2, decompressPoint c (s.regs.get .z1) (s.regs.get .z2) = .ok (.affine px py) ∧
      (commandIn c .decompress s).regs.get .status = 0x2) ∨
    (decompressPoint c (s.regs.get .z1) (s.regs.get .z2) = .ok .infinity ∧
      (commandIn c .decompress s).regs.get .status = 0x802) := by
  rcases decompressRule_cases c s with ⟨d, hpoint, h⟩ | ⟨px, py, hpoint, h⟩ | ⟨hpoint, h⟩
  · exact .inl ⟨d, hpoint, by simp [commandIn, h]⟩
  · exact .inr (.inl ⟨px, py, hpoint, by simp [commandIn, h]⟩)
  · exact .inr (.inr ⟨hpoint, by simp [commandIn, h]⟩)

theorem decompressPoint_of_statInf (h : statInf ((commandIn c .decompress s).regs.get .status) = true) :
    decompressPoint c (s.regs.get .z1) (s.regs.get .z2) = .ok .infinity := by
  rcases decompress_status_cases c s with ⟨d, -, hst⟩ | ⟨px, py, -, hst⟩ | ⟨hpoint, -⟩
  · rw [hst, statInf_failStat] at h
    cases h
  · have hclear : statInf 0x2 = false := by decide +kernel
    rw [hst, hclear] at h
    cases h
  · exact hpoint

theorem decompressPoint_of_status_eq_two (h : (commandIn c .decompress s).regs.get .status = 0x2) :
    ∃ px py : Fq2, decompressPoint c (s.regs.get .z1) (s.regs.get .z2) = .ok (.affine px py) := by
  rcases decompress_status_cases c s with ⟨d, -, hst⟩ | ⟨px, py, hpoint, -⟩ | ⟨-, hst⟩
  · have herr := statErr_failStat d
    rw [← hst, h] at herr
    exact absurd herr (by decide +kernel)
  · exact ⟨px, py, hpoint⟩
  · exact absurd (hst.symm.trans h) (by decide +kernel)

/-- COMPRESS of field elements completes with their compressed form (43_compressor.md R132). -/
theorem compress_of_wf (hx : (fq2Of s.regs .xRe .xIm).wf c = true) (hy : (fq2Of s.regs .yRe .yIm).wf c = true) :
    CompletesAs s (commandIn c .compress s) 0x2 [.z1, .z2] ∧
      (commandIn c .compress s).regs.get .z1 = wordOf (compressPoint c (operandPoint s.regs)).1 ∧
      (commandIn c .compress s).regs.get .z2 = wordOf (compressPoint c (operandPoint s.regs)).2 := by
  obtain ⟨hxRe, hxIm⟩ := (Fq2.wf_iff _).mp hx
  obtain ⟨hyRe, hyIm⟩ := (Fq2.wf_iff _).mp hy
  exact compress_of_inRange ((firstOutOfRange_eq_none_iff c s.regs compressChecks).mpr (by simp_all [compressChecks, fq2Of]))

end Command

theorem get_eq_of_fq2Of_eq {x x' : Regs} {re im : RegName} (h : fq2Of x re im = fq2Of x' re im) :
    x.get re = x'.get re ∧ x.get im = x'.get im := by
  obtain ⟨hre, him⟩ := Fq2.mk.inj h
  exact ⟨BitVec.eq_of_toNat_eq hre, BitVec.eq_of_toNat_eq him⟩

/-- A completion that leaves the registers it writes at their values changes STATUS alone. -/
theorem CompletesAs.of_unchanged {s t : State} {st : Word} {changed : List RegName} (h : CompletesAs s t st changed)
    (hkept : ∀ r ∈ changed, t.regs.get r = s.regs.get r) : CompletesAs s t st [] where
  idle := h.idle
  status := h.status
  frame := fun r hr _ => (em (r ∈ changed)).elim (hkept r) (h.frame r hr)
  port := h.port

end Sys2Proof.Machine

namespace Sys2Proof.Machine

variable {c : Cfg}

/-! ### What DECOMPRESS answers, and what compression and decompression undo (44_decompressor.md R140 to R147) -/

/-- Settles O49: each branch of the statement is one outcome of the validation, on a valid configuration. -/
theorem decompressFollowsItsValidation : Obligations.DecompressFollowsItsValidation := by
  refine ⟨decode_encode .decompress, fun s => ⟨_, exec_eq .decompress s, ?_⟩⟩
  have hpoint := decompressPoint_eq Config.hardware (s.regs.get .z1) (s.regs.get .z2)
  have hc := hardware_valid
  intro a xIm z2
  by_cases hC : (s.regs.get .z1).getLsbD 383 = false
  · rw [if_pos hC, ← failStat_cFlagClear]
    exact decompress_of_error (hpoint.trans (if_pos hC))
  replace hpoint := hpoint.trans (if_neg hC)
  rw [if_neg hC]
  by_cases hB : (s.regs.get .z1).getLsbD 382 ≠ decide (xIm = 0 ∧ z2 = 0)
  · rw [if_pos hB, ← failStat_bFlagMismatch]
    exact decompress_of_error (hpoint.trans (if_pos hB))
  replace hpoint := hpoint.trans (if_neg hB)
  rw [if_neg hB]
  by_cases hinf : xIm = 0 ∧ z2 = 0
  · replace hpoint := hpoint.trans (if_pos hinf)
    rw [if_pos hinf]
    by_cases hA : a = 1
    · rw [if_pos hA, ← failStat_aFlagOnInfinity]
      exact decompress_of_error (hpoint.trans (if_pos (Bool.toNat_eq_one.mp hA)))
    · rw [if_neg hA]
      exact decompress_of_infinity (hpoint.trans (if_neg (mt Bool.toNat_eq_one.mpr hA)))
  replace hpoint := hpoint.trans (if_neg hinf)
  rw [if_neg hinf]
  by_cases him : Config.hardware.q ≤ xIm
  · rw [if_pos him, ← failStat_xImRange]
    exact decompress_of_error (hpoint.trans (decompressFinite_of_xIm _ _ him))
  rw [if_neg him]
  rw [not_le] at him
  by_cases hre : Config.hardware.q ≤ z2
  · rw [if_pos hre, ← failStat_xReRange]
    exact decompress_of_error (hpoint.trans (decompressFinite_of_xRe _ him hre))
  rw [if_neg hre]
  rw [not_le] at hre
  constructor
  · intro hroot
    rw [← failStat_noRoot]
    exact decompress_of_error (hpoint.trans (decompressFinite_of_not_hasRoot hc _ him hre hroot))
  · rintro ⟨y, hy⟩
    obtain ⟨hcompletes, hX, -, hcurve⟩ := decompress_of_isRoot hc hpoint him hre hy
    refine ⟨hcompletes, hX, fun u hu => ?_, hcurve⟩
    obtain ⟨-, -, hY, -⟩ := decompress_of_isRoot hc hpoint him hre hu
    exact hY

/-- Settles O50: the pair of COMPRESS_INF is the one form of the point at infinity. -/
theorem infinityRoundTrip : Obligations.InfinityRoundTrip := by
  refine ⟨fun s => ?_, fun s hz1 hz2 => ?_, fun s t ht hinf => ?_⟩
  · obtain ⟨-, hz1, hz2⟩ := compressInf_result Config.hardware s
    refine ⟨_, _, exec_eq .compressInf s, exec_eq .decompress _, decompress_of_infinity (decompressPoint_infinity _ ?_ ?_)⟩
    · rw [hz1]
      decide +kernel
    · rw [hz2]
      decide +kernel
  · exact ⟨_, exec_eq .decompress s, decompress_of_infinity (decompressPoint_infinity _ hz1 hz2)⟩
  · obtain rfl : commandIn Config.hardware .decompress s = t := Host.Outcome.next.inj ((exec_eq .decompress s).symm.trans ht)
    exact toNat_of_decompressPoint_infinity hardware_valid (decompressPoint_of_statInf hinf)

theorem decompressPoint_ne_notOnCurve (hc : c.Valid) (z1 z2 : Word) : decompressPoint c z1 z2 ≠ .error .notOnCurve := by
  rcases decompressPoint_valid_cases hc z1 z2 with ⟨d, hd, h⟩ | ⟨-, -, h⟩ | ⟨a, y, -, -, -, -, h⟩ <;> rw [h]
  · exact fun heq => hd (Except.error.inj heq)
  · exact nofun
  · exact nofun

/-- Settles O51: the corrected root is a root, so the curve check passes. -/
theorem notOnCurveIsUnreachable : Obligations.NotOnCurveIsUnreachable := by
  refine ⟨fun c z1 z2 hc => decompressPoint_ne_notOnCurve hc z1 z2, fun s t ht hst => ?_⟩
  obtain rfl : commandIn Config.hardware .decompress s = t := Host.Outcome.next.inj ((exec_eq .decompress s).symm.trans ht)
  rcases decompress_status_cases Config.hardware s with ⟨d, hpoint, hd⟩ | ⟨px, py, -, hok⟩ | ⟨-, hok⟩
  · rw [eq_notOnCurve_of_failStat_eq (hd.symm.trans hst)] at hpoint
    exact decompressPoint_ne_notOnCurve hardware_valid _ _ hpoint
  · exact absurd (hok.symm.trans hst) (by decide +kernel)
  · exact absurd (hok.symm.trans hst) (by decide +kernel)

/-- Settles O52: DECOMPRESS reads the compressed form back as the point, which X and Y hold already. -/
theorem finiteRoundTrip : Obligations.FiniteRoundTrip := by
  intro c s hc hx hy hcurve h0
  obtain ⟨hcompress, hz1, hz2⟩ := compress_of_wf hx hy
  have hpoint := decompressPoint_compressPoint hc hx hy hcurve h0
  rw [← operandPoint, ← hz1, ← hz2] at hpoint
  obtain ⟨hdecompress, hX, hY⟩ := decompress_of_affine hc.wf hx hy hpoint
  obtain ⟨hxRe, hxIm⟩ := get_eq_of_fq2Of_eq hX
  obtain ⟨hyRe, hyIm⟩ := get_eq_of_fq2Of_eq hY
  have hback : ∀ r ∈ [RegName.xRe, .xIm, .yRe, .yIm],
      (commandIn c .decompress (commandIn c .compress s)).regs.get r = s.regs.get r :=
    forall_mem_coordinates hxRe hxIm hyRe hyIm
  have hkept : ∀ r ∈ [RegName.xRe, .xIm, .yRe, .yIm], (commandIn c .compress s).regs.get r = s.regs.get r := by
    intro r hr
    refine hcompress.frame r ?_ ?_ <;> revert r <;> decide
  exact ⟨hdecompress.of_unchanged fun r hr => (hback r hr).trans (hkept r hr).symm, hback⟩

/-- Settles O53: the configuration of the block as built is valid. -/
theorem hardwareRoundTrip : Obligations.HardwareRoundTrip := by
  intro s hx hy hcurve h0
  obtain ⟨hdecompress, hback⟩ := finiteRoundTrip Config.hardware s hardware_valid hx hy hcurve h0
  exact ⟨_, _, exec_eq .compress s, exec_eq .decompress _, hdecompress.status, hback⟩

/-- Settles O54: the form of an accepted point is determined by the point. -/
theorem acceptedEncodingsAreCanonical : Obligations.AcceptedEncodingsAreCanonical := by
  intro c hc hcorner
  refine ⟨fun s hst => ?finite, fun s hst => ?infinity, fun z1 z2 z1' z2' p h h' => ?unique⟩
  case finite =>
    obtain ⟨px, py, hpoint⟩ := decompressPoint_of_status_eq_two hst
    obtain ⟨hx, hy⟩ := decompressPoint_wf hc hpoint
    have hform := compressPoint_decompressPoint hc hcorner hpoint
    obtain ⟨-, rfl, rfl⟩ := decompress_of_affine hc.wf hx hy hpoint
    obtain ⟨-, hz1, hz2⟩ := compress_of_wf hx hy
    rw [operandPoint, hform, wordOf_toNat_self] at hz1 hz2
    exact ⟨List.forall_mem_cons.mpr ⟨hz1, List.forall_mem_singleton.mpr hz2⟩, hform⟩
  case infinity =>
    have hinf : statInf ((commandIn c .decompress s).regs.get .status) = true := by
      rw [hst]
      decide +kernel
    have hpoint := decompressPoint_of_statInf hinf
    obtain ⟨hval1, hval2⟩ := toNat_of_decompressPoint_infinity hc hpoint
    obtain ⟨-, hz1, hz2⟩ := compressInf_result c (commandIn c .decompress s)
    rw [← hval1, wordOf_toNat_self] at hz1
    rw [← hval2, wordOf_toNat_self] at hz2
    exact ⟨List.forall_mem_cons.mpr ⟨hz1, List.forall_mem_singleton.mpr hz2⟩,
      compressPoint_decompressPoint hc hcorner hpoint⟩
  case unique =>
    have heq := (compressPoint_decompressPoint hc hcorner h).symm.trans (compressPoint_decompressPoint hc hcorner h')
    obtain ⟨hz1, hz2⟩ := Prod.mk.inj heq
    exact ⟨BitVec.eq_of_toNat_eq hz1, BitVec.eq_of_toNat_eq hz2⟩

/-- Settles O55: with x = ZERO2 the form is that of the point at infinity but for its B bit, which COMPRESS leaves
clear. -/
theorem zeroXIsRefused : Obligations.ZeroXIsRefused := by
  intro c s hc hxRe hxIm hy
  have hq : 0 < c.q := Nat.lt_of_succ_lt (Cfg.one_lt_q hc)
  have hX : fq2Of s.regs .xRe .xIm = zero2 := by
    rw [eq_zero2_iff]
    exact ⟨(word_eq_zero_iff _).mp hxRe, (word_eq_zero_iff _).mp hxIm⟩
  obtain ⟨a, ha⟩ := exists_bit_eq_aFlag hc hy
  obtain ⟨-, hz1, hz2⟩ := compress_of_wf (hX ▸ zero2_wf hq) hy
  rw [operandPoint, hX] at hz1 hz2
  rw [wordOf_compressPoint hc (zero2_wf hq) ha] at hz1
  rw [← failStat_bFlagMismatch]
  refine decompress_of_error ?_
  have hinf : isInfinityForm (wordOf zero2.im) (wordOf zero2.re) = true := by decide +kernel
  rw [hz1, hz2, decompressPoint_encodeFlags, compressPoint, hinf]
  rfl

/-! ### No corner points on CFG_BN254 (44_decompressor.md R147) -/

/-- The norm is multiplicative and takes negatives to equal values, so where x³ + B2 vanishes the norm of B2 is a
cube. -/
theorem exists_cube_norm_of_curveRhs (hc : c.Valid) {x : Fq2} (hx : x.wf c = true) (h : curveRhs c x = zero2) :
    ∃ n : ZMod c.q, n ^ 3 = norm2 c c.b2 := by
  have hq := hc.prime.pos
  have hsum : toQuadratic c x ^ 3 + toQuadratic c c.b2 = 0 := by
    rw [← toQuadratic_zero2, ← h, curveRhs, toQuadratic_add2, cube2, toQuadratic_mul2, toQuadratic_sqr2, ← pow_succ]
  have hcube : toQuadratic c (neg2 c x) ^ 3 = toQuadratic c c.b2 := by
    rw [toQuadratic_neg2 hx]
    linear_combination -hsum
  exact ⟨QuadraticAlgebra.norm (toQuadratic c (neg2 c x)), by rw [← map_pow, hcube, norm_toQuadratic hq]⟩

/-- Modulo Q = 1 (mod 3) a nonzero cube is 1 to the power (Q − 1)/3. -/
theorem pow_third_of_cube (hc : c.Valid) (h3 : c.q % 3 = 1) {n m : ZMod c.q} (hn : n ^ 3 = m) (h0 : m ≠ 0) :
    m ^ ((c.q - 1) / 3) = 1 := by
  have := valid_fact hc
  have hn0 : n ≠ 0 := fun h => h0 (by rw [← hn, h, zero_pow three_ne_zero])
  rw [← hn, ← pow_mul, show 3 * ((c.q - 1) / 3) = c.q - 1 by omega, ZMod.pow_card_sub_one_eq_one hn0]

theorem hardware_b2_wf : Config.hardware.b2.wf Config.hardware = true := by decide +kernel

theorem hardware_b2_ne_zero2 : Config.hardware.b2 ≠ zero2 := by decide

/-- Settles O56: the norm of B2 is neither a square nor a cube modulo Q. -/
theorem hardwareHasNoCornerPoints : Obligations.HardwareHasNoCornerPoints := by
  have hc := hardware_valid
  constructor
  · rw [hasRoot_iff_isResidue hc hardware_b2_wf hardware_b2_ne_zero2]
    decide +kernel
  · intro x hx h
    obtain ⟨n, hn⟩ := exists_cube_norm_of_curveRhs hc hx h
    have hpow := pow_third_of_cube hc (by decide) hn (cast_norm2_ne_zero hc hardware_b2_wf hardware_b2_ne_zero2)
    have hne : fpow Config.hardware (norm2 Config.hardware Config.hardware.b2) ((Config.hardware.q - 1) / 3) ≠ 1 := by
      decide +kernel
    refine hne (eq_of_cast (fpow_lt hc.prime.one_lt _ _) hc.prime.one_lt ?_)
    rw [cast_fpow, hpow, Nat.cast_one]

end Sys2Proof.Machine

namespace Sys2Proof.Machine

/-! ### Failures (60_exceptions.md R160 to R166) -/

/-- Settles O18: the reset branch of the cycle comes before the phase and the access are looked at. -/
theorem resetWinsOverEverything : Obligations.ResetWinsOverEverything := by
  intro e p s hrst
  exact ⟨resetBlock s, cycle_of_reset e hrst s, resetBlock_regs s, resetBlock_phase s, resetBlock_rdData s⟩

@[simp] theorem failStat_notOnCurve : failStat .notOnCurve = 0x3a6 := by decide +kernel
@[simp] theorem failStat_badOpcode : failStat .badOpcode = 0x72e := by decide +kernel
@[simp] theorem failStat_reservedBits : failStat .reservedBits = 0x7ae := by decide +kernel

/-- Settles O27: the frame of `raise`, and the STATUS value of each detail. -/
theorem raiseChangesOnlyStatus : Obligations.RaiseChangesOnlyStatus := by
  refine ⟨raise_completesAs, ?_⟩
  simp only [List.map_cons, List.map_nil, failStat_cFlagClear, failStat_bFlagMismatch, failStat_aFlagOnInfinity,
    failStat_xImRange, failStat_xReRange, failStat_noRoot, failStat_notOnCurve, failStat_opXRe, failStat_opXIm,
    failStat_opYRe, failStat_opYIm, failStat_opVRe, failStat_opVIm, failStat_badOpcode, failStat_reservedBits]

/-- `t` is a completion of `s` without failure: `finish`, with ERR, ECODE and EDETAIL at 0 (10_state.md R37). -/
def Succeeds (s t : State) : Prop :=
  ∃ (f : StatArgs) (x : Regs), f.err = false ∧ f.ecode = 0 ∧ f.edet = 0 ∧ t = finish f x s

theorem Succeeds.statErr_eq_false {s t : State} (h : Succeeds s t) : statErr (t.regs.get .status) = false := by
  obtain ⟨f, x, herr, hecode, hedet, rfl⟩ := h
  obtain ⟨-, -, hfield, -⟩ := stat_fields (f := f) (by omega) (by omega)
  rw [finish_regs, Regs.get_set_self, hfield, herr]

/-- There are two ways for a command to end: `raise`, from the registers as they were, or success (60_exceptions.md
R160, R163). -/
theorem commandIn_raises_or_succeeds (c : Cfg) (i : Instr) (s : State) :
    (∃ d : Detail, commandIn c i s = raise d s) ∨ Succeeds s (commandIn c i s) := by
  cases i with
  | encodeFlags fc fb fa => exact .inr ⟨_, _, rfl, rfl, rfl, rfl⟩
  | decodeFlags => exact .inr ⟨_, _, rfl, rfl, rfl, rfl⟩
  | compressInf => exact .inr ⟨_, _, rfl, rfl, rfl, rfl⟩
  | fq2Sqrt =>
    rcases fq2SqrtRule_cases c s with ⟨d, -, h⟩ | ⟨-, -, h⟩ | ⟨root, -, -, h⟩
    · exact .inl ⟨d, h⟩
    · exact .inr ⟨_, _, rfl, rfl, rfl, h⟩
    · exact .inr ⟨_, _, rfl, rfl, rfl, h⟩
  | compress =>
    rcases compressRule_cases c s with ⟨d, -, h⟩ | ⟨-, h⟩
    · exact .inl ⟨d, h⟩
    · exact .inr ⟨_, _, rfl, rfl, rfl, h⟩
  | decompress =>
    rcases decompressRule_cases c s with ⟨d, -, h⟩ | ⟨px, py, -, h⟩ | ⟨-, h⟩
    · exact .inl ⟨d, h⟩
    · exact .inr ⟨_, _, rfl, rfl, rfl, h⟩
    · exact .inr ⟨_, _, rfl, rfl, rfl, h⟩

/-- With ERR = 1, the command has failed. -/
theorem commandIn_eq_raise_of_statErr {c : Cfg} {i : Instr} {s : State}
    (h : statErr ((commandIn c i s).regs.get .status) = true) : ∃ d : Detail, commandIn c i s = raise d s :=
  (commandIn_raises_or_succeeds c i s).resolve_right fun hsucc => Bool.false_ne_true (hsucc.statErr_eq_false.symm.trans h)

/-- STATUS, the one register that a failure writes, holds no offending value (60_exceptions.md R162). -/
theorem Detail.status_notMem_offending (d : Detail) : RegName.status ∉ d.offending := by
  cases d <;> decide

/-- Settles O28: ERR = 1 comes from `raise` alone. -/
theorem failingCommandKeepsItsOperands : Obligations.FailingCommandKeepsItsOperands := by
  refine fun i s => ⟨_, exec_eq i s, fun herr => ?_⟩
  obtain ⟨d, hraise⟩ := commandIn_eq_raise_of_statErr herr
  have hcompletes := raise_completesAs d s
  rw [hraise]
  refine ⟨d, hcompletes, fun r hr => hcompletes.frame r ?_ List.not_mem_nil⟩
  rintro rfl
  exact d.status_notMem_offending hr

end Sys2Proof.Machine

namespace Sys2Proof.Machine

/-! ### The reset state and the abort (70_reset_and_hazards.md R180 to R182, R185) -/

/-- Settles O16: an Idle block reads every register at its index, and 0 elsewhere. -/
theorem resetStateIsAllZero : Obligations.ResetStateIsAllZero := by
  refine ⟨Regs.get_reset, fun i => ?_, rfl⟩
  cases hi : regAt i with
  | none => exact portRead_reserved ((regAt_eq_none_iff i).mp hi) State.reset
  | some r =>
    rw [(regAt_eq_some_iff i r).mp hi, portRead_index_of_idle r rfl]
    exact congrArg some (Regs.get_reset r)

/-- Settles O19: nothing has been accepted since reset. -/
theorem resetMeetsTheInvariant : Obligations.ResetMeetsTheInvariant :=
  (stateInv_idle_iff rfl).mpr (.inl ⟨Regs.get_reset .cmd, Regs.get_reset .status⟩)

/-- Settles O17: a reset wins over the running word, and without one the count alone decides how the cycle goes on. -/
theorem onlyResetAbortsACommand : Obligations.OnlyResetAbortsACommand := by
  intro s cw n hbusy
  refine ⟨fun hrst => ?_, fun hrst => ?_⟩
  · obtain ⟨t, hstep, hregs, hphase, -⟩ := resetWinsOverEverything hardwareEngine (nextInput s) (takeInput s) hrst
    exact ⟨t, hstep, hregs, hphase, by simp [hregs, State.reset, statDone]⟩
  · by_cases hn : n ≤ 1
    · obtain ⟨t, ht, -⟩ := complete_hardware_spec cw (driven s)
      exact ⟨t, (step_of_last hrst hbusy hn).trans ht, .inr ht⟩
    · exact ⟨_, step_of_busy hrst hbusy (by omega), .inl ⟨rfl, by simp⟩⟩

theorem busyStat_ne_zero : busyStat ≠ 0 := by
  intro h
  simpa [h, statBusy] using statBusy_busyStat

/-- A completed command leaves DONE = 1, so STATUS is not 0. -/
theorem StatusFits.ne_zero {cw st : Word} (h : StatusFits cw st) : st ≠ 0 := by
  rintro rfl
  simpa [statDone] using h.statusDone.done

/-- Settles O22: acceptance and counting leave BUSY, and a completion leaves DONE. -/
theorem statusZeroMeansNothingAccepted : Obligations.StatusZeroMeansNothingAccepted := by
  intro s t hinv hstep hzero
  obtain ⟨t', hstep', heffect⟩ := step_effect s
  cases hstep'.symm.trans hstep
  cases heffect with
  | reset hrst hphase hregs => exact .inl hrst
  | accepts n hrst hidle hwr hpos hmax ht =>
    subst ht
    exact absurd (by simpa using hzero) busyStat_ne_zero
  | waits hrst hidle hwr hphase hcmd hstatus => exact .inr ⟨hstatus.symm.trans hzero, hidle, hphase, hcmd⟩
  | completes cw n hrst hbusy hlast hrun =>
    obtain ⟨u, hu, -, -, hfits⟩ := complete_hardware_spec cw (driven s)
    cases hu.symm.trans hrun
    exact absurd hzero hfits.ne_zero
  | counts cw n hrst hbusy hmore ht =>
    subst ht
    obtain ⟨-, hstatus, -⟩ := (stateInv_busy_iff hbusy).mp hinv
    exact absurd (hstatus.symm.trans (by simpa using hzero)) busyStat_ne_zero

/-! ### The placed word (10_state.md R39; 70_reset_and_hazards.md R191) -/

theorem tableWord_toNat (cw : Word) : tableWord 384 cw.toNat = cw := by
  rw [tableWord, Nat.mod_eq_of_lt cw.isLt, BitVec.ofNat_toNat, BitVec.setWidth_eq]

/-- The coming cycle makes no access, so rd_data is drawn and the accepted word completes. -/
theorem step_readyToComplete (cw : Word) (s : State) :
    step (readyToComplete cw s) = complete hardwareEngine cw (drawRdData (accept cw 1 s)) :=
  calc step (readyToComplete cw s)
      = complete hardwareEngine cw (driven (readyToComplete cw s)) := step_of_last rfl rfl le_rfl
    _ = complete hardwareEngine cw (drawRdData (accept cw 1 s)) :=
        congrArg (complete hardwareEngine cw) (driveRdData_eq_draw (p := PortIn.quiet) (.inr rfl) (accept cw 1 s))

/-- Settles O6: the placed word is the command's own, and it decodes to the command. -/
theorem placedWordRunsNext : Obligations.PlacedWordRunsNext := by
  intro s i
  rw [State.withFetchWord, tableWord_toNat, step_readyToComplete, complete_of_ok (decode_encode i)]

/-! ### LATENCY and the result (00_scope.md R12; 70_reset_and_hazards.md R186) -/

/-- The state in which a word completes in a configuration, whatever the latency. -/
def completionIn (c : Cfg) (cw : Word) (s : State) : State :=
  match decode cw with
  | .ok i => commandIn c i s
  | .error w => raise (illegalDetail w) s

section Latency

variable {c : Cfg} {cw : Word} {latency : Word → Regs → Nat}

theorem complete_engineIn (s : State) : complete (engineIn c latency) cw s = .next (completionIn c cw s) := by
  unfold complete completionIn
  cases decode cw <;> rfl

theorem completionIn_phase (s : State) : (completionIn c cw s).phase = .idle := by
  unfold completionIn
  split
  · exact commandIn_phase ..
  · exact raise_phase ..

/-- A completion's registers come from the registers alone (10_state.md R41). -/
theorem completionIn_regs_congr {s s' : State} (h : s.regs = s'.regs) :
    (completionIn c cw s).regs = (completionIn c cw s').regs := by
  unfold completionIn
  split
  · exact commandIn_regs_congr c _ h
  · simp [h]

theorem cyclesOf_succ {e : Engine} {ins : List PortIn} {s t : State} (h : cycle e (ins.headD PortIn.quiet) s = .next t)
    (k : Nat) : cyclesOf e (k + 1) ins s = cyclesOf e k ins.tail t := by
  rw [cyclesOf, h]

theorem headD_quiet_rst {ins : List PortIn} (h : ∀ p ∈ ins, p.rst = false) : (ins.headD PortIn.quiet).rst = false := by
  cases ins with
  | nil => rfl
  | cons p rest => exact h p List.mem_cons_self

/-- A Busy block counts down with its registers as they are, and then its word completes on them. -/
theorem cyclesOf_completes (n : Nat) : ∀ (s : State) (ins : List PortIn), s.phase = .busy cw (n + 1) →
    (∀ p ∈ ins, p.rst = false) → ∃ t : State, cyclesOf (engineIn c latency) (n + 1) ins s = .next t ∧ t.phase = .idle ∧
      t.regs = (completionIn c cw s).regs := by
  induction n with
  | zero =>
    intro s ins hbusy hrst
    have hcycle := cycle_of_last (engineIn c latency) (headD_quiet_rst hrst) hbusy le_rfl
    exact ⟨_, cyclesOf_succ (hcycle.trans (complete_engineIn _)) 0, completionIn_phase _,
      completionIn_regs_congr (driveRdData_regs _ s)⟩
  | succ n ih =>
    intro s ins hbusy hrst
    have hcycle := cycle_of_busy (engineIn c latency) (headD_quiet_rst hrst) hbusy (by omega)
    obtain ⟨t, ht, hphase, hregs⟩ := ih { driveRdData (ins.headD PortIn.quiet) s with phase := .busy cw (n + 1 + 1 - 1) }
      ins.tail rfl fun p hp => hrst p (List.mem_of_mem_tail hp)
    exact ⟨t, (cyclesOf_succ hcycle (n + 1)).trans ht, hphase,
      hregs.trans (completionIn_regs_congr (driveRdData_regs _ s))⟩

/-- The host's write to CMD in an Idle cycle is an acceptance with the engine's latency (10_state.md R39). -/
theorem cycle_writeCmd (e : Engine) {s : State} (hidle : s.phase = .idle) :
    cycle e (writeCycle .cmd cw) s = .next (accept cw (e.latency cw s.regs) (driveRdData (writeCycle .cmd cw) s)) :=
  cycle_of_idle e rfl hidle

/-- After its latency, an accepted word has completed on the registers of acceptance, whatever the latency and the
host's accesses are. -/
theorem cyclesOf_accepted {s : State} {ins : List PortIn} (hidle : s.phase = .idle) (hpos : 1 ≤ latency cw s.regs)
    (hrst : ∀ p ∈ ins, p.rst = false) : ∃ t : State,
      cyclesOf (engineIn c latency) (latency cw s.regs + 1) (writeCycle .cmd cw :: ins) s = .next t ∧
      t.phase = .idle ∧ t.regs = (completionIn c cw (accept cw 1 s)).regs := by
  have hcycle := cycle_writeCmd (cw := cw) (engineIn c latency) hidle
  obtain ⟨n, hn⟩ := Nat.exists_eq_add_of_le' hpos
  obtain ⟨t, ht, hphase, hregs⟩ := cyclesOf_completes (c := c) (latency := latency) n
    (accept cw (latency cw s.regs) (driveRdData (writeCycle .cmd cw) s)) ins (congrArg (Phase.busy cw) hn) hrst
  exact ⟨t, (cyclesOf_succ hcycle _).trans (hn ▸ ht), hphase, hregs.trans (completionIn_regs_congr (by simp))⟩

end Latency

/-- Settles O24: at either latency the word ends with the registers of its completion. -/
theorem resultsDoNotDependOnLatency : Obligations.ResultsDoNotDependOnLatency := by
  intro c lat lat' s cw ins ins' hidle hpos hpos' hrst hrst'
  obtain ⟨t, ht, hphase, hregs⟩ := cyclesOf_accepted hidle hpos hrst
  obtain ⟨t', ht', hphase', hregs'⟩ := cyclesOf_accepted hidle hpos' hrst'
  exact ⟨t, t', ht, ht', hphase, hphase', hregs.trans hregs'.symm⟩

end Sys2Proof.Machine
